-- ==== Sys2Proof/Word.lean ====
section
/-! DEFINITION. The two widths of the core: a byte (R8, R10) and a command word (R10, R47). -/

namespace Sys2Proof

/-- An 8-bit unsigned value: a message byte, a table entry, a table index, a polynomial, the accumulator
(R8, R10). Bit 0 is the least significant bit. -/
abbrev Byte := BitVec 8

/-- A 16-bit command word, `CMD` (R47, R48). -/
abbrev Cmd := BitVec 16

end Sys2Proof
end

