-- ==== Sys2Proof/Config.lean ====
section
/-! DEFINITION. What an implementation fixes: the one OPEN parameter of R8 that the transaction model has,
`MSG_LEN_MAX`. (`CYCLE_BINDING` and `LATENCY` are clocked matters, outside the transaction model: R6, R121.) -/

namespace Sys2Proof

/-- The parameters of the core (R8). State holds one such record; no step writes it (log 5). -/
structure Config where
  /-- `MSG_LEN_MAX`, the longest message a CRC command accepts; `none` is "unbounded" (R8, D11). -/
  msgLenMax : Option Nat
  deriving DecidableEq, Repr

/-- The parameter's default: unbounded (R8: "the model's default is unbounded"). -/
def Config.standard : Config := ⟨none⟩

end Sys2Proof
end

