-- ==== Sys2Proof/Syntax.lean ====
section
/-! DEFINITION. The six commands (R3, R54), the convention each one states (R49), and an assembly line (R58). -/

namespace Sys2Proof

/-- The bit-order convention `c` (R13, R34): normal (MSB first, `N`) or reflected (LSB first, `R`). -/
inductive Conv where
  | normal
  | reflected
  deriving DecidableEq, Repr

/-- A decoded command: one constructor per row of spec/opcode_table.json. The polynomial operand is CMD[15:8]
(R50); the message operand is no part of the command word and stands in State (R47, R30). -/
inductive Instr where
  /-- `build_table_normal P` (R66). -/
  | buildTableNormal (p : Byte)
  /-- `build_table_reflected P` (R67). -/
  | buildTableReflected (p : Byte)
  /-- `crc_bitwise_normal M, P` (R74). -/
  | crcBitwiseNormal (p : Byte)
  /-- `crc_bitwise_reflected M, P` (R75). -/
  | crcBitwiseReflected (p : Byte)
  /-- `crc_table_normal M` (R83). -/
  | crcTableNormal
  /-- `crc_table_reflected M` (R84). -/
  | crcTableReflected
  deriving DecidableEq, Repr

/-- The mnemonic of a command, as the assembly syntax and the opcode table spell it (R58). -/
def Instr.mnemonic : Instr → String
  | .buildTableNormal _ => "build_table_normal"
  | .buildTableReflected _ => "build_table_reflected"
  | .crcBitwiseNormal _ => "crc_bitwise_normal"
  | .crcBitwiseReflected _ => "crc_bitwise_reflected"
  | .crcTableNormal => "crc_table_normal"
  | .crcTableReflected => "crc_table_reflected"

/-- One line of assembly (R58): a mnemonic with its operands in signature order, or the listing form of an
illegal word, `.word`. The operands are numbers as written; WellFormed checks that each is a byte. -/
inductive AsmLine where
  | buildTableNormal (poly : Nat)
  | buildTableReflected (poly : Nat)
  | crcBitwiseNormal (msg : List Nat) (poly : Nat)
  | crcBitwiseReflected (msg : List Nat) (poly : Nat)
  | crcTableNormal (msg : List Nat)
  | crcTableReflected (msg : List Nat)
  /-- `.word 0xHHHH`, with the message the transport supplies after it (log 15). -/
  | word (w : Nat) (msg : List Nat)
  deriving DecidableEq, Repr

end Sys2Proof
end

