-- ==== Sys2Proof/WellFormed.lean ====
section
/-! DEFINITION. The checks on syntax. A decoded command needs none: its one operand is a byte by type (R50, C1).
An assembly line is checked: "The assembler refuses any value outside 0..255" (R58). -/

namespace Sys2Proof

/-- Every command of the type `Instr` is well formed: all 256 polynomials are legal (R50) and the table commands
carry no operand (R48). -/
def Instr.wellFormed : Instr → Bool
  | .buildTableNormal _ => true
  | .buildTableReflected _ => true
  | .crcBitwiseNormal _ => true
  | .crcBitwiseReflected _ => true
  | .crcTableNormal => true
  | .crcTableReflected => true

/-- A number as written is a byte (R58). -/
def isByte (n : Nat) : Bool := decide (n < 256)

/-- Every number of a written message is a byte (R58). -/
def isMessage (m : List Nat) : Bool := m.all isByte

/-- A well-formed assembly line: every polynomial and every message byte is in 0..255, and the word of a `.word`
line has 16 bits (R58). -/
def AsmLine.wellFormed : AsmLine → Bool
  | .buildTableNormal p => isByte p
  | .buildTableReflected p => isByte p
  | .crcBitwiseNormal m p => isMessage m && isByte p
  | .crcBitwiseReflected m p => isMessage m && isByte p
  | .crcTableNormal m => isMessage m
  | .crcTableReflected m => isMessage m
  | .word w m => decide (w < 65536) && isMessage m

end Sys2Proof
end

