-- ==== Sys2Proof/Decode.lean ====
section
/-! DEFINITION. The fields of the command word (R48), the decoder (R53, total on all words; R57, two bytes), the
encoder (R54), and the opcode map as a list of rows (R54). -/

namespace Sys2Proof

/-- Why a word is no command (R53, R55). -/
inductive Reject where
  /-- Fewer than the two bytes a decoder takes (R57). It concerns a serial transport only; no word is rejected so. -/
  | truncated
  /-- CMD[7:3] is not 00000 (R55, second class). -/
  | reservedBits
  /-- KIND = 00 (R55, first class). -/
  | reservedKind
  /-- A TABLE opcode with POLY != 0x00 (R55, third class). -/
  | tablePoly
  deriving DecidableEq, Repr

/-- What KIND = CMD[2:1] selects (R48). -/
inductive Kind where
  | reserved
  | build
  | bitwise
  | table
  deriving DecidableEq, Repr

/-- REFL = CMD[0] (R48). -/
def reflField (w : Cmd) : Bool := w.getLsbD 0

/-- KIND = CMD[2:1] (R48): 00 reserved, 01 BUILD, 10 BITWISE, 11 TABLE. -/
def kindField (w : Cmd) : Kind :=
  match w.getLsbD 2, w.getLsbD 1 with
  | false, false => .reserved
  | false, true => .build
  | true, false => .bitwise
  | true, true => .table

/-- RSV = CMD[7:3] (R48). -/
def rsvField (w : Cmd) : BitVec 5 := w.extractLsb' 3 5

/-- The opcode byte OPC = CMD[7:0] (R48). -/
def opcField (w : Cmd) : Byte := w.extractLsb' 0 8

/-- POLY = CMD[15:8] (R48, R50). -/
def polyField (w : Cmd) : Byte := w.extractLsb' 8 8

/-- The convention a REFL bit selects: 0 is normal, 1 is reflected (R48, R49). -/
def Conv.ofRefl (b : Bool) : Conv := if b then .reflected else .normal

/-- The REFL bit of a convention (R48). -/
def Conv.refl : Conv → Bool
  | .normal => false
  | .reflected => true

/-- The decoder, total on all 65,536 words (R53). -/
def decodeWord (w : Cmd) : Except Reject Instr :=
  if rsvField w ≠ 0#5 then .error .reservedBits
  else
    match kindField w, Conv.ofRefl (reflField w) with
    | .reserved, _ => .error .reservedKind
    | .build, .normal => .ok (.buildTableNormal (polyField w))
    | .build, .reflected => .ok (.buildTableReflected (polyField w))
    | .bitwise, .normal => .ok (.crcBitwiseNormal (polyField w))
    | .bitwise, .reflected => .ok (.crcBitwiseReflected (polyField w))
    | .table, c =>
      if polyField w ≠ 0x00#8 then .error .tablePoly
      else
        match c with
        | .normal => .ok .crcTableNormal
        | .reflected => .ok .crcTableReflected

/-- The word `{hi, lo}`: concatenation with `hi` in the upper bits (R10). -/
def pack (hi lo : Byte) : Cmd := hi ++ lo

/-- A command word from its two serial bytes: byte 0 is CMD[7:0], byte 1 is CMD[15:8] (R52). -/
def wordOfBytes (b0 b1 : Byte) : Cmd := pack b1 b0

/-- The two serial bytes of a command word, in the order they travel (R52). -/
def bytesOfWord (w : Cmd) : List Byte := [opcField w, polyField w]

/-- The decoder on a byte transport: it takes exactly two bytes as the command word (R57) and leaves the rest. -/
def decodeBytes : List Byte → Except Reject (Instr × List Byte)
  | b0 :: b1 :: rest =>
    match decodeWord (wordOfBytes b0 b1) with
    | .ok i => .ok (i, rest)
    | .error e => .error e
  | _ => .error .truncated

/-- The command word of a command (R54): `{P, OPC}`, with POLY = 0x00 for the table commands. -/
def encode : Instr → Cmd
  | .buildTableNormal p => pack p 0x02#8
  | .buildTableReflected p => pack p 0x03#8
  | .crcBitwiseNormal p => pack p 0x04#8
  | .crcBitwiseReflected p => pack p 0x05#8
  | .crcTableNormal => 0x0006#16
  | .crcTableReflected => 0x0007#16

/-- The serial bytes of a command (R52, R54). -/
def encodeBytes (i : Instr) : List Byte := bytesOfWord (encode i)

/-- One row of the opcode map (R54): a word is legal for it iff `CMD & mask = match`. -/
structure OpcodeRow where
  mnemonic : String
  pattern : Cmd
  mask : Cmd
  deriving DecidableEq, Repr

/-- The opcode map (R54). -/
def opcodeMap : List OpcodeRow :=
  [ ⟨"build_table_normal", 0x0002#16, 0x00FF#16⟩,
    ⟨"build_table_reflected", 0x0003#16, 0x00FF#16⟩,
    ⟨"crc_bitwise_normal", 0x0004#16, 0x00FF#16⟩,
    ⟨"crc_bitwise_reflected", 0x0005#16, 0x00FF#16⟩,
    ⟨"crc_table_normal", 0x0006#16, 0xFFFF#16⟩,
    ⟨"crc_table_reflected", 0x0007#16, 0xFFFF#16⟩ ]

/-- A word is legal for a row (R54). -/
def OpcodeRow.admits (r : OpcodeRow) (w : Cmd) : Bool := (w &&& r.mask) == r.pattern

/-- The word is one of the six commands. -/
def isLegal (w : Cmd) : Bool :=
  match decodeWord w with
  | .ok _ => true
  | .error _ => false

/-- The 16-bit word of an instruction given by the number of its bits; every bit from `nbits` up is 0. -/
def layWord (nbits w : Nat) : Cmd := BitVec.ofNat 16 (w % 2 ^ nbits)

/-- The instruction the decoder reads from an instruction whose bits are `w`, numbered as the opcode table numbers
them: the word is laid out in its serial bytes (R52) and given to the byte decoder. -/
def decodeTableWord (nbits w : Nat) : Option Instr :=
  match decodeBytes (bytesOfWord (layWord nbits w)) with
  | .ok (i, _) => some i
  | .error _ => none

end Sys2Proof
end

