-- ==== Sys2Proof/Machine/State.lean ====
section
/-! DEFINITION. The state of the core as plain data: the table store (R17, R22), the state of a running command
(R17, R18, R20), the message space (R30, R31), the two ends of the host channel (R47, R90), and reset (R28). -/

namespace Sys2Proof.Machine

/-- The cells of one table space (R30): pairs of an index and the byte there, in canonical form (`Memory.wf`).
An index that is not listed holds no value (`Memory.unlisted`). -/
abbrev Memory := List Host.Cell

/-- What an index that is not listed reads as: no value (R29: "absent (`none`), not ... zero"). -/
def Memory.unlisted : Option Byte := none

/-- The canonical form of a table space: indices strictly rising, each in 0..255 (R30). No cell can equal what an
unlisted index reads as, since that is no value. -/
abbrev Memory.wf (m : Memory) : Prop :=
  m.Pairwise (fun c d => c.1 < d.1) ∧ ∀ c ∈ m, c.1 < 256

/-- One slot of the table store (R22): its valid bit (R23), its polynomial field (R24) and its 256 entries. -/
structure Slot where
  /-- `VALID[c]` (R23). -/
  valid : Bool
  /-- `POLY[c]`, absent until a build (R24, R29). -/
  poly : Option Byte
  /-- `TABLE[c][0..255]`, each entry absent until a build (R22, R29). -/
  table : Memory
  deriving DecidableEq, Repr

/-- A slot after reset (R28): not valid, no polynomial, no entry. -/
def Slot.empty : Slot := ⟨false, none, []⟩

/-- The transient state of a CRC command (R17, R18, R20). -/
structure CrcRun where
  /-- `REFL`, latched from CMD[0] (R20, R49). -/
  refl : Bool
  /-- `P`, latched from CMD[15:8] (R20, R50); 0x00 for a table command, whose POLY field is 0x00 (R48). -/
  poly : Byte
  /-- `ACC`, the accumulator (R18). -/
  acc : Byte
  /-- `k`, the message byte position (R20). -/
  k : Nat
  /-- `j`, the division-step counter, 0..7 (R20). -/
  j : Nat
  deriving DecidableEq, Repr

/-- The transient state of a build command (R17, R20, R66). -/
structure BuildRun where
  /-- `REFL`, latched from CMD[0] (R20, R49). -/
  refl : Bool
  /-- `P`, latched from CMD[15:8] (R20, R50). -/
  poly : Byte
  /-- `i`, the table index being built, 0..255 (R20). -/
  i : Nat
  /-- `j`, the division-step counter, 0..7 (R20). -/
  j : Nat
  /-- `r`, the builder's own working byte (R18, R66). -/
  work : Byte
  /-- `T'`, the table being built (R66). -/
  built : Memory
  deriving DecidableEq, Repr

/-- The transient state of the one running command (R17, R18: one engine, one ACC). -/
inductive Running where
  | crc (r : CrcRun)
  | build (r : BuildRun)
  deriving DecidableEq, Repr

/-- The status of a response (R92). -/
inductive Status where
  /-- The command completed as its rule says. -/
  | ok
  /-- The command word matches no row of the opcode map. -/
  | illegalCommand
  /-- A table command found VALID[c] = 0. -/
  | noTable
  /-- A CRC command's message is longer than MSG_LEN_MAX. -/
  | lengthError
  deriving DecidableEq, Repr

/-- The value of a response (R90). -/
inductive Value where
  /-- No value: every status but OK. -/
  | none
  /-- The final ACC of a CRC command. -/
  | crc (b : Byte)
  /-- The table just built, entry 0 first. -/
  | table (entries : List Byte)
  deriving DecidableEq, Repr

/-- The one response of a completed command (R90). It carries no tag (R117). -/
structure Response where
  status : Status
  value : Value
  deriving DecidableEq, Repr

/-- What the host can do to the core (R47, R106, R120). -/
inductive HostEvent where
  /-- A command word with its message operand. A build ignores a message supplied with it (R47). -/
  | command (word : Cmd) (msg : List Byte)
  /-- A reset between commands (R106). -/
  | reset
  /-- A command, and a reset after `n` of its micro-operations, before its response (R106, R108; log 9). -/
  | resetDuring (word : Cmd) (msg : List Byte) (n : Nat)
  deriving DecidableEq, Repr

/-- One operation of a running command: a line of the pseudocode of R66, R67, R74, R75, R83 or R84. -/
inductive MicroOp where
  /-- `ACC <- ACC ^ MemRead(MSG:k, 1)` (R74, R75, R84). -/
  | absorb (k : Nat)
  /-- Division step `j` of the working byte: ACC of a CRC command (R74, R75), `r` of a build (R66, R67). -/
  | divide (j : Nat)
  /-- `ACC <- MemRead(TBL_c:ACC, 1)` (R84). -/
  | lookup
  /-- `ACC <- MemRead(TBL_c:(ACC ^ MemRead(MSG:k, 1)), 1)` (R83). -/
  | lookupByte (k : Nat)
  /-- `r <- i` (R66, R67). -/
  | loadIndex (i : Nat)
  /-- `T'[i] <- r` (R66, R67). -/
  | keep
  deriving DecidableEq, Repr

/-- The state of the machine. -/
structure State where
  /-- The parameters (R8); no step writes them. -/
  cfg : Config
  /-- Slot `TBL_N` with VALID[N] and POLY[N] (R22). -/
  slotN : Slot
  /-- Slot `TBL_R` with VALID[R] and POLY[R] (R22). -/
  slotR : Slot
  /-- The space MSG: the message of the running command, m_0 first (R30, R31). Empty between commands. -/
  msg : List Byte
  /-- The transient state of the running command; it does not exist between commands (R17, R28). -/
  running : Option Running
  /-- The model's own field: host events not yet taken, in issue order (R47, R40; log 2). -/
  inbox : List HostEvent
  /-- The model's own field: the responses sent, oldest first (R90, R40; log 2). -/
  outbox : List Response
  deriving DecidableEq, Repr

/-- Why the model faults. The core has no fault (R93, R96): each of these marks a state that no run reaches. -/
inductive Fault where
  /-- Raised by a table read (`readTable`) of an entry that has no value, as R29 demands. Safe: the machine stops
  where the spec gives no value; no state reached from reset raises it. -/
  | absentEntry
  /-- Raised by a message read (`readMessage`) outside 0..N-1, as R36 demands. Safe: no command does such a read. -/
  | messageOutOfRange
  /-- Raised by a micro-operation, or the end of a command, whose transient state does not exist (R28; log 17).
  Safe: no command does so. -/
  | notRunning
  deriving DecidableEq, Repr

/-- Why the model gives no meaning. Every command has one, so no step refuses. -/
inductive Refusal where
  /-- An instruction the model has not reached. Raised by no arm of `exec`; safe. -/
  | notModelled (mnemonic : String)
  deriving DecidableEq, Repr

/-- The machine right after reset (R28, R107): both slots not valid and absent, no command running, the parameter at
its default (R8), and nothing issued or answered yet (log 3). -/
def State.reset : State :=
  { cfg := Config.standard
    slotN := Slot.empty
    slotR := Slot.empty
    msg := []
    running := none
    inbox := []
    outbox := [] }

end Sys2Proof.Machine
end

