-- ==== Sys2Proof/Machine/Flags.lean ====
section
/-! DEFINITION. The core has no flags (R21). This file holds the tests that decide what happens next: the two bit
tests of the division steps, which store nothing (R21, R34), the status codes (R92), and the two checks of the CRC
commands (R83, R84, R94). -/

namespace Sys2Proof.Machine

/-- The leading-bit test of the normal convention, r[7] (R34, R60; mask 0x80). -/
def topBit (r : Byte) : Bool := r.getLsbD 7

/-- The leading-bit test of the reflected convention, r[0] (R34, R62; mask 0x1). -/
def lowBit (r : Byte) : Bool := r.getLsbD 0

/-- The two bits of a status (R92). -/
def Status.code : Status → BitVec 2
  | .ok => 0b00#2
  | .illegalCommand => 0b01#2
  | .noTable => 0b10#2
  | .lengthError => 0b11#2

/-- `N > MSG_LEN_MAX` (R74, R83); never so when the parameter is unbounded (R92). -/
def lengthExceeded (s : State) : Bool :=
  match s.cfg.msgLenMax with
  | none => false
  | some m => decide (m < s.msg.length)

/-- The slot of a convention (R22, R49). -/
def State.slot (s : State) : Conv → Slot
  | .normal => s.slotN
  | .reflected => s.slotR

/-- The check of a bitwise command: the message length alone (R74, R75). -/
def checkLength (s : State) : Option Status :=
  if lengthExceeded s then some .lengthError else none

/-- The checks of a table command, LENGTH_ERROR before NO_TABLE (R83, R84, R94). -/
def checkTable (c : Conv) (s : State) : Option Status :=
  match checkLength s with
  | some st => some st
  | none => if (s.slot c).valid then none else some .noTable

end Sys2Proof.Machine
end

