-- ==== Sys2Proof/Machine/Division.lean ====
section
/-! DEFINITION. The pure functions of the spec: the division steps and byte divisions (R60 to R63), the tables
(R64, R65), and the four CRC functions (R72, R73, R81, R82). They are total (R93). The commands do not call the
last four: that a command computes them is a statement about the machine. -/

namespace Sys2Proof.Machine

/-- Normal division step (R60): `<<` keeps 8 bits and drops r[7] (R11). -/
def stepN (r p : Byte) : Byte := if topBit r then (r <<< 1) ^^^ p else r <<< 1

/-- Reflected division step (R62): a logical shift with zero fill; P is XORed exactly as given. -/
def stepR (r p : Byte) : Byte := if lowBit r then (r >>> 1) ^^^ p else r >>> 1

/-- Normal byte division: stepN eight times (R61). -/
def divN (r p : Byte) : Byte :=
  stepN (stepN (stepN (stepN (stepN (stepN (stepN (stepN r p) p) p) p) p) p) p) p

/-- Reflected byte division: stepR eight times (R63). -/
def divR (r p : Byte) : Byte :=
  stepR (stepR (stepR (stepR (stepR (stepR (stepR (stepR r p) p) p) p) p) p) p) p

/-- The normal table of a polynomial (R64), a function from index to entry (R12). -/
def buildN (p : Byte) : Byte → Byte := fun i => divN i p

/-- The reflected table of a polynomial (R65). -/
def buildR (p : Byte) : Byte → Byte := fun i => divR i p

/-- The normal bitwise CRC (R72). -/
def crcBN (m : List Byte) (p : Byte) : Byte := m.foldl (fun a b => divN (a ^^^ b) p) 0x00#8

/-- The reflected bitwise CRC, last byte first (R73). -/
def crcBR (m : List Byte) (p : Byte) : Byte := m.reverse.foldl (fun a b => divR (a ^^^ b) p) 0x00#8

/-- The normal table-driven CRC over any table (R81). -/
def crcTN (m : List Byte) (t : Byte → Byte) : Byte := m.foldl (fun a b => t (a ^^^ b)) 0x00#8

/-- The reflected table-driven CRC over any table, last byte first (R82). -/
def crcTR (m : List Byte) (t : Byte → Byte) : Byte := m.reverse.foldl (fun a b => t (a ^^^ b)) 0x00#8

/-- The division step of a convention (R49). -/
def divStep : Conv → Byte → Byte → Byte
  | .normal => stepN
  | .reflected => stepR

/-- The table of a convention and a polynomial (R25). -/
def builtTable : Conv → Byte → Byte → Byte
  | .normal => buildN
  | .reflected => buildR

/-- The 256 entries of a table, entry 0 first (R90). -/
def entriesOf (t : Byte → Byte) : List Byte := (List.range 256).map fun i => t (BitVec.ofNat 8 i)

/-- The cells of a table space that holds the table `t` (R22, R30). -/
def cellsOf (t : Byte → Byte) : Memory := (List.range 256).map fun i => (i, t (BitVec.ofNat 8 i))

end Sys2Proof.Machine
end

