-- ==== Sys2Proof/Machine/Operands.lean ====
section
/-! DEFINITION. How a command reads its operands and its slot: the cells of a table space, and the primitives
`MemRead(MSG:k, 1)` (R36), `MemRead(TBL_c:i, 1)` and `MemWrite(TBL_c:i, 1, v)` (R37). Every access is one byte (R35). -/

namespace Sys2Proof.Machine

/-- Read one index of a table space. -/
def Memory.read (m : Memory) (i : Nat) : Option Byte :=
  match m with
  | [] => Memory.unlisted
  | c :: rest => if c.1 = i then some c.2 else Memory.read rest i

/-- Write one index of a table space, keeping the indices rising. -/
def Memory.write (m : Memory) (i : Nat) (v : Byte) : Memory :=
  match m with
  | [] => [(i, v)]
  | c :: rest =>
    if i < c.1 then (i, v) :: c :: rest
    else if i = c.1 then (i, v) :: rest
    else c :: Memory.write rest i v

/-- Replace the slot of a convention; the other slot is not touched (R66, R67). -/
def State.setSlot (s : State) (c : Conv) (sl : Slot) : State :=
  match c with
  | .normal => { s with slotN := sl }
  | .reflected => { s with slotR := sl }

/-- `MemRead(MSG:k, 1)` (R36): byte m_k, and a fault outside 0..N-1. -/
def readMessage (s : State) (k : Nat) : Except Fault Byte :=
  match s.msg[k]? with
  | some b => .ok b
  | none => .error .messageOutOfRange

/-- `MemRead(TBL_c:i, 1)` (R37): entry `i` of slot `c`, and a fault where it has no value (R29). -/
def readTable (s : State) (c : Conv) (i : Byte) : Except Fault Byte :=
  match (s.slot c).table.read i.toNat with
  | some v => .ok v
  | none => .error .absentEntry

/-- `MemWrite(TBL_c:i, 1, v)` (R37). -/
def writeTable (s : State) (c : Conv) (i v : Byte) : State :=
  s.setSlot c { s.slot c with table := (s.slot c).table.write i.toNat v }

/-- The positions of a message in the order a convention consumes them: ascending for normal, descending for
reflected (R33). -/
def positions (c : Conv) (n : Nat) : List Nat :=
  match c with
  | .normal => List.range n
  | .reflected => (List.range n).reverse

end Sys2Proof.Machine
end

