-- ==== Sys2Proof/Machine/Ops.lean ====
section
/-! DEFINITION. The shared operations of the commands: taking the next host event, the response (R90), raising a
status (R91), the micro-operations of a running command, the atomic update that ends a build (R37), and reset (R107).
The core has no exception to take and none to return from (R96, R97); `raise` is the whole of its error path. -/

namespace Sys2Proof.Machine

/-- What the machine answers (Host.Outcome at the model's own reasons). -/
abbrev Answer := Host.Outcome State Fault Refusal

/-- Take a command from the channel: its message is captured in MSG (R31, R41) and the rest of the channel waits. -/
def issue (m : List Byte) (rest : List HostEvent) (s : State) : State :=
  { s with msg := m, inbox := rest }

/-- `respond(st, v)` (R13, R90): the response is sent after every earlier one (R40), the command ends, and nothing of
its transient state or its message is kept (R17, R31). -/
def respond (st : Status) (v : Value) (s : State) : State :=
  { s with running := none, msg := [], outbox := s.outbox ++ [⟨st, v⟩] }

/-- `raise st()` (R91): the command ends with the response `{st, none}` and writes no persistent state. -/
def raise (st : Status) (s : State) : State := respond st .none s

/-- The transient state a CRC command starts with (R18: ACC <- 0x00; k and j are set before they are used, log 8). -/
def startCrc (c : Conv) (p : Byte) (s : State) : State :=
  { s with running := some (.crc { refl := c.refl, poly := p, acc := 0x00#8, k := 0, j := 0 }) }

/-- The transient state a build command starts with (R66; T' has no entry yet, i, j and r are set before they are
used, log 8). -/
def startBuild (c : Conv) (p : Byte) (s : State) : State :=
  { s with running := some (.build { refl := c.refl, poly := p, i := 0, j := 0, work := 0x00#8, built := [] }) }

/-- Store the transient state of the running command. -/
def State.withRunning (s : State) (r : Running) : State := { s with running := some r }

/-- One micro-operation of the running command. -/
def microOp (op : MicroOp) (s : State) : Except Fault State :=
  match s.running, op with
  | some (.crc r), .absorb k =>
    match readMessage s k with
    | .ok b => .ok (s.withRunning (.crc { r with acc := r.acc ^^^ b, k := k }))
    | .error f => .error f
  | some (.crc r), .divide j =>
    .ok (s.withRunning (.crc { r with acc := divStep (Conv.ofRefl r.refl) r.acc r.poly, j := j }))
  | some (.crc r), .lookup =>
    match readTable s (Conv.ofRefl r.refl) r.acc with
    | .ok v => .ok (s.withRunning (.crc { r with acc := v }))
    | .error f => .error f
  | some (.crc r), .lookupByte k =>
    match readMessage s k with
    | .ok b =>
      match readTable s (Conv.ofRefl r.refl) (r.acc ^^^ b) with
      | .ok v => .ok (s.withRunning (.crc { r with acc := v, k := k }))
      | .error f => .error f
    | .error f => .error f
  | some (.build r), .loadIndex i =>
    .ok (s.withRunning (.build { r with work := BitVec.ofNat 8 i, i := i }))
  | some (.build r), .divide j =>
    .ok (s.withRunning (.build { r with work := divStep (Conv.ofRefl r.refl) r.work r.poly, j := j }))
  | some (.build r), .keep =>
    .ok (s.withRunning (.build { r with built := r.built.write r.i r.work }))
  | some (.crc _), .loadIndex _ => .error .notRunning
  | some (.crc _), .keep => .error .notRunning
  | some (.build _), .absorb _ => .error .notRunning
  | some (.build _), .lookup => .error .notRunning
  | some (.build _), .lookupByte _ => .error .notRunning
  | none, _ => .error .notRunning

/-- The micro-operations of a command in order, up to the first fault. -/
def runOps : List MicroOp → State → Except Fault State
  | [], s => .ok s
  | op :: ops, s =>
    match microOp op s with
    | .ok t => runOps ops t
    | .error f => .error f

/-- The eight division steps of one byte division, j = 0..7 (R61, R63). -/
def divideByte : List MicroOp := (List.range 8).map .divide

/-- The atomic update that ends a build (R37, R66, R67): all 256 entries, POLY[c] and VALID[c] at once. -/
def install (s : State) (c : Conv) (p : Byte) (t : Memory) : State :=
  s.setSlot c { valid := true, poly := some p, table := t }

/-- The end of a command (R66, R74): a CRC command responds OK with ACC; a build installs its table and responds OK
with its entries, entry 0 first. -/
def complete (s : State) : Answer :=
  match s.running with
  | some (.crc r) => .next (respond .ok (.crc r.acc) s)
  | some (.build r) =>
    .next (respond .ok (.table (r.built.map Prod.snd)) (install s (Conv.ofRefl r.refl) r.poly r.built))
  | none => .fault .notRunning

/-- A whole command: a check that failed raises its status before any access (R91, R94); otherwise the command starts,
does its micro-operations and completes. It is atomic: one step (R40). -/
def perform (check : Option Status) (start : State → State) (ops : List MicroOp) (s : State) : Answer :=
  match check with
  | some st => .next (raise st s)
  | none =>
    match runOps ops (start s) with
    | .ok t => complete t
    | .error f => .fault f

/-- How far a command gets in `n` micro-operations (R106: a reset may come while a command runs). A command whose
check fails does none. -/
def partWay (check : Option Status) (start : State → State) (ops : List MicroOp) (n : Nat) (s : State) :
    Except Fault State :=
  match check with
  | some _ => .ok s
  | none => runOps (ops.take n) (start s)

/-- The reset step (R107): both slots not valid and absent, the command in progress ended with no response (R108).
The parameter stays, and so do the two ends of the host channel (log 10). -/
def takeReset (s : State) : State :=
  { State.reset with cfg := s.cfg, inbox := s.inbox, outbox := s.outbox }

end Sys2Proof.Machine
end

