-- ==== Sys2Proof/Machine/BitwiseEngine.lean ====
section
/-! DEFINITION. crc8_bitwise_engine: `crc_bitwise_normal` (R74) and `crc_bitwise_reflected` (R75). -/

namespace Sys2Proof.Machine

/-- The loop of R74 and R75 over the positions of the message: absorb the byte, divide eight times. -/
def opsBitwise (ks : List Nat) : List MicroOp := ks.flatMap fun k => .absorb k :: divideByte

/-- `crc_bitwise_normal M, P` (R74): bytes in forward order. -/
def execCrcBitwiseNormal (p : Byte) (s : State) : Answer :=
  perform (checkLength s) (startCrc .normal p) (opsBitwise (positions .normal s.msg.length)) s

/-- `crc_bitwise_reflected M, P` (R75): last byte of the message first. -/
def execCrcBitwiseReflected (p : Byte) (s : State) : Answer :=
  perform (checkLength s) (startCrc .reflected p) (opsBitwise (positions .reflected s.msg.length)) s

end Sys2Proof.Machine
end

