-- ==== Sys2Proof/Machine/TableBuilder.lean ====
section
/-! DEFINITION. crc_table_builder: `build_table_normal` (R66) and `build_table_reflected` (R67). A build reads no
message and checks no length (R47). -/

namespace Sys2Proof.Machine

/-- The pseudocode of R66 and R67: for i in 0..255, load the index, divide eight times, keep the entry. -/
def opsBuild : List MicroOp :=
  (List.range 256).flatMap fun i => .loadIndex i :: (divideByte ++ [.keep])

/-- `build_table_normal P` (R66). -/
def execBuildTableNormal (p : Byte) (s : State) : Answer :=
  perform none (startBuild .normal p) opsBuild s

/-- `build_table_reflected P` (R67). -/
def execBuildTableReflected (p : Byte) (s : State) : Answer :=
  perform none (startBuild .reflected p) opsBuild s

end Sys2Proof.Machine
end

