-- ==== Sys2Proof/Machine/TableLookupEngine.lean ====
section
/-! DEFINITION. crc8_table_lookup_engine: `crc_table_normal` (R83) and `crc_table_reflected` (R84). Neither reads
POLY[c] (R89). -/

namespace Sys2Proof.Machine

/-- The loop of R83: one lookup a byte. -/
def opsTableNormal (ks : List Nat) : List MicroOp := ks.map .lookupByte

/-- The loop of R84: absorb the byte, then look up. -/
def opsTableReflected (ks : List Nat) : List MicroOp := ks.flatMap fun k => [.absorb k, .lookup]

/-- `crc_table_normal M` (R83): bytes in forward order, slot TBL_N. -/
def execCrcTableNormal (s : State) : Answer :=
  perform (checkTable .normal s) (startCrc .normal 0x00#8) (opsTableNormal (positions .normal s.msg.length)) s

/-- `crc_table_reflected M` (R84): last byte of the message first, slot TBL_R. -/
def execCrcTableReflected (s : State) : Answer :=
  perform (checkTable .reflected s) (startCrc .reflected 0x00#8)
    (opsTableReflected (positions .reflected s.msg.length)) s

end Sys2Proof.Machine
end

