-- ==== Sys2Proof/Machine/Dispatch.lean ====
section
/-! DEFINITION. One arm per command: each is one call of its meaning. -/

namespace Sys2Proof.Machine

def exec (i : Instr) (s : State) : Host.Outcome State Fault Refusal :=
  match i with
  | .buildTableNormal p => Sys2Proof.Machine.execBuildTableNormal p s
  | .buildTableReflected p => Sys2Proof.Machine.execBuildTableReflected p s
  | .crcBitwiseNormal p => Sys2Proof.Machine.execCrcBitwiseNormal p s
  | .crcBitwiseReflected p => Sys2Proof.Machine.execCrcBitwiseReflected p s
  | .crcTableNormal => Sys2Proof.Machine.execCrcTableNormal s
  | .crcTableReflected => Sys2Proof.Machine.execCrcTableReflected s

end Sys2Proof.Machine
end

