-- ==== Sys2Proof/Machine/Reset.lean ====
section
/-! DEFINITION. A reset while a command runs (R106, R108): how far each command gets, and what the reset leaves; and the
operation counts of R118. -/

namespace Sys2Proof.Machine

/-- The check a command makes before it starts (R94). -/
def checkOf (i : Instr) (s : State) : Option Status :=
  match i with
  | .buildTableNormal _ => none
  | .buildTableReflected _ => none
  | .crcBitwiseNormal _ => checkLength s
  | .crcBitwiseReflected _ => checkLength s
  | .crcTableNormal => checkTable .normal s
  | .crcTableReflected => checkTable .reflected s

/-- The transient state a command starts with. -/
def startOf (i : Instr) (s : State) : State :=
  match i with
  | .buildTableNormal p => startBuild .normal p s
  | .buildTableReflected p => startBuild .reflected p s
  | .crcBitwiseNormal p => startCrc .normal p s
  | .crcBitwiseReflected p => startCrc .reflected p s
  | .crcTableNormal => startCrc .normal 0x00#8 s
  | .crcTableReflected => startCrc .reflected 0x00#8 s

/-- The micro-operations of a command on a message of `n` bytes (R118). -/
def opsOf (i : Instr) (n : Nat) : List MicroOp :=
  match i with
  | .buildTableNormal _ => opsBuild
  | .buildTableReflected _ => opsBuild
  | .crcBitwiseNormal _ => opsBitwise (positions .normal n)
  | .crcBitwiseReflected _ => opsBitwise (positions .reflected n)
  | .crcTableNormal => opsTableNormal (positions .normal n)
  | .crcTableReflected => opsTableReflected (positions .reflected n)

/-- The state in which a reset finds a command after `n` micro-operations. An illegal word does none (R55). -/
def inProgress (w : Cmd) (n : Nat) (s : State) : Except Fault State :=
  match decodeWord w with
  | .ok i => partWay (checkOf i s) (startOf i) (opsOf i s.msg.length) n s
  | .error _ => .ok s

/-- A reset during a command (R108): the command is abandoned where it stands, and the reset step follows. -/
def resetDuring (w : Cmd) (n : Nat) (s : State) : Answer :=
  match inProgress w n s with
  | .ok t => .next (takeReset t)
  | .error f => .fault f

/-- A micro-operation that is a division step (R118). -/
def MicroOp.isDivision : MicroOp → Bool
  | .divide _ => true
  | .absorb _ => false
  | .lookup => false
  | .lookupByte _ => false
  | .loadIndex _ => false
  | .keep => false

/-- A micro-operation that reads the table store (R118). -/
def MicroOp.readsTable : MicroOp → Bool
  | .lookup => true
  | .lookupByte _ => true
  | .absorb _ => false
  | .divide _ => false
  | .loadIndex _ => false
  | .keep => false

/-- A micro-operation that makes a table entry, which the build's atomic update then writes once (R66, R118). -/
def MicroOp.makesEntry : MicroOp → Bool
  | .keep => true
  | .absorb _ => false
  | .divide _ => false
  | .lookup => false
  | .lookupByte _ => false
  | .loadIndex _ => false

/-- A micro-operation that reads a message byte (R118). -/
def MicroOp.readsMessage : MicroOp → Bool
  | .absorb _ => true
  | .lookupByte _ => true
  | .divide _ => false
  | .lookup => false
  | .loadIndex _ => false
  | .keep => false

end Sys2Proof.Machine
end

