-- ==== Sys2Proof/Machine/Step.lean ====
section
/-! DEFINITION. One step of the machine takes the next host event (R40, R47, R106); with none it idles (R104, R109). -/

namespace Sys2Proof.Machine

/-- A command word meets the decoder: an illegal word raises ILLEGAL_COMMAND (R53, R55), any other runs. -/
def runWord (w : Cmd) (s : State) : Host.Outcome State Fault Refusal :=
  match decodeWord w with
  | .ok i => exec i s
  | .error _ => .next (raise .illegalCommand s)

/-- One step: commands run one at a time, in issue order, each as a whole (R40). -/
def step (s : State) : Host.Outcome State Fault Refusal :=
  match s.inbox with
  | [] => .next s
  | .command w m :: rest => runWord w (issue m rest s)
  | .reset :: rest => .next (takeReset { s with inbox := rest })
  | .resetDuring w m n :: rest => resetDuring w n (issue m rest s)

/-- The same state with a command word placed as the next one on the channel, with an empty message (log 3). -/
def State.withFetchWord (s : State) (nbits w : Nat) : State :=
  { s with inbox := .command (layWord nbits w) [] :: s.inbox }

end Sys2Proof.Machine
end

