-- ==== Sys2Proof/Machine/Assembler.lean ====
section
/-! DEFINITION. The assembly syntax of R58: reading a line of text, the command word and message of a line, and the
listing of a word. It is how a host writes commands down; no step of the machine uses it. -/

namespace Sys2Proof.Machine

/-- A lexical item of a line. A number keeps how it was written, since `0xHH` is a byte and `0xHHHH` a word (R58). -/
inductive Token where
  | name (cs : List Char)
  | hex (digits n : Nat)
  | dec (n : Nat)
  | lbracket
  | rbracket
  | comma
  deriving DecidableEq, Repr

/-- The value of a hexadecimal digit. -/
def hexValue (c : Char) : Option Nat :=
  if 48 ≤ c.toNat ∧ c.toNat ≤ 57 then some (c.toNat - 48)
  else if 65 ≤ c.toNat ∧ c.toNat ≤ 70 then some (c.toNat - 55)
  else if 97 ≤ c.toNat ∧ c.toNat ≤ 102 then some (c.toNat - 87)
  else none

/-- The value of a decimal digit. -/
def decValue (c : Char) : Option Nat :=
  if 48 ≤ c.toNat ∧ c.toNat ≤ 57 then some (c.toNat - 48) else none

/-- A number in a base, most significant digit first; `none` where a character is no digit. -/
def readDigits (base : Nat) (digit : Char → Option Nat) : List Char → Nat → Option Nat
  | [], n => some n
  | c :: cs, n =>
    match digit c with
    | some d => readDigits base digit cs (base * n + d)
    | none => none

/-- A run of characters as a number or a name. -/
def classify (cs : List Char) : Token :=
  match cs with
  | '0' :: 'x' :: d :: ds =>
    match readDigits 16 hexValue (d :: ds) 0 with
    | some n => .hex (ds.length + 1) n
    | none => .name cs
  | _ =>
    match readDigits 10 decValue cs 0 with
    | some n => .dec n
    | none => .name cs

/-- The item of the characters read so far, if there are any. -/
def flush (cur : List Char) : List Token := if cur.isEmpty then [] else [classify cur]

/-- The items of a line; a `;` starts a comment (R58). `cur` holds the characters of the item being read. -/
def tokens : List Char → List Char → List Token
  | [], cur => flush cur
  | c :: cs, cur =>
    if c = ';' then flush cur
    else if c = ' ' ∨ c = '\t' then flush cur ++ tokens cs []
    else if c = '[' then flush cur ++ .lbracket :: tokens cs []
    else if c = ']' then flush cur ++ .rbracket :: tokens cs []
    else if c = ',' then flush cur ++ .comma :: tokens cs []
    else tokens cs (cur ++ [c])

/-- A byte "written `0xHH` or as a decimal" (R58); WellFormed checks its range. -/
def byteToken : Token → Option Nat
  | .hex digits n => if digits = 2 then some n else none
  | .dec n => some n
  | .name _ => none
  | .lbracket => none
  | .rbracket => none
  | .comma => none

/-- A word written `0xHHHH` (R58). -/
def wordToken : Token → Option Nat
  | .hex digits n => if digits = 4 then some n else none
  | .dec _ => none
  | .name _ => none
  | .lbracket => none
  | .rbracket => none
  | .comma => none

/-- The bytes of a message after its `[`, one or more with commas between, up to the `]`, and the items after it. -/
def messageItems : List Token → Option (List Nat × List Token)
  | t :: .rbracket :: rest => (byteToken t).map fun n => ([n], rest)
  | t :: .comma :: rest =>
    match byteToken t, messageItems rest with
    | some n, some (ns, rest') => some (n :: ns, rest')
    | _, _ => none
  | _ => none

/-- A message in brackets, `[]` the empty one, and the items after it (R58). -/
def bracketed : List Token → Option (List Nat × List Token)
  | .lbracket :: .rbracket :: rest => some ([], rest)
  | .lbracket :: rest => messageItems rest
  | _ => none

/-- `<poly>` as the only operand. -/
def polyOperand (mk : Nat → AsmLine) : List Token → Option AsmLine
  | [t] => (byteToken t).map mk
  | _ => none

/-- `[<b0>, <b1>, ...]` as the only operand. -/
def messageOperand (mk : List Nat → AsmLine) (ts : List Token) : Option AsmLine :=
  match bracketed ts with
  | some (m, []) => some (mk m)
  | _ => none

/-- `[<b0>, <b1>, ...], <poly>` as the operands. -/
def messagePolyOperands (mk : List Nat → Nat → AsmLine) (ts : List Token) : Option AsmLine :=
  match bracketed ts with
  | some (m, [.comma, t]) => (byteToken t).map (mk m)
  | _ => none

/-- `0xHHHH`, and a message if one is given, as the operands of `.word`. -/
def wordOperands : List Token → Option AsmLine
  | [t] => (wordToken t).map fun w => .word w []
  | t :: ts =>
    match wordToken t, bracketed ts with
    | some w, some (m, []) => some (.word w m)
    | _, _ => none
  | [] => none

/-- A line of text as an assembly line (R58): the mnemonic, then its operands in signature order. -/
def parseLine (cs : List Char) : Option AsmLine :=
  match tokens cs [] with
  | .name n :: ts =>
    if n = "build_table_normal".toList then polyOperand .buildTableNormal ts
    else if n = "build_table_reflected".toList then polyOperand .buildTableReflected ts
    else if n = "crc_bitwise_normal".toList then messagePolyOperands .crcBitwiseNormal ts
    else if n = "crc_bitwise_reflected".toList then messagePolyOperands .crcBitwiseReflected ts
    else if n = "crc_table_normal".toList then messageOperand .crcTableNormal ts
    else if n = "crc_table_reflected".toList then messageOperand .crcTableReflected ts
    else if n = ".word".toList then wordOperands ts
    else none
  | _ => none

/-- The bytes of a written message. -/
def messageBytes (m : List Nat) : List Byte := m.map (BitVec.ofNat 8)

/-- The command of a well-formed line: its word by R54 and its message; a build carries no message (R47). -/
def commandOf : AsmLine → HostEvent
  | .buildTableNormal p => .command (encode (.buildTableNormal (BitVec.ofNat 8 p))) []
  | .buildTableReflected p => .command (encode (.buildTableReflected (BitVec.ofNat 8 p))) []
  | .crcBitwiseNormal m p => .command (encode (.crcBitwiseNormal (BitVec.ofNat 8 p))) (messageBytes m)
  | .crcBitwiseReflected m p => .command (encode (.crcBitwiseReflected (BitVec.ofNat 8 p))) (messageBytes m)
  | .crcTableNormal m => .command (encode .crcTableNormal) (messageBytes m)
  | .crcTableReflected m => .command (encode .crcTableReflected) (messageBytes m)
  | .word w m => .command (BitVec.ofNat 16 w) (messageBytes m)

/-- The assembler: it refuses a line that is not well formed (R58). -/
def assemble (l : AsmLine) : Option HostEvent := if l.wellFormed then some (commandOf l) else none

/-- The listing of a command word with its message: its assembly line, or `.word` for an illegal word (R58). A build's
message is not listed, since it has no place in the line and the core does not read it (R47). -/
def listing (w : Cmd) (m : List Byte) : AsmLine :=
  match decodeWord w with
  | .ok (.buildTableNormal p) => .buildTableNormal p.toNat
  | .ok (.buildTableReflected p) => .buildTableReflected p.toNat
  | .ok (.crcBitwiseNormal p) => .crcBitwiseNormal (m.map BitVec.toNat) p.toNat
  | .ok (.crcBitwiseReflected p) => .crcBitwiseReflected (m.map BitVec.toNat) p.toNat
  | .ok .crcTableNormal => .crcTableNormal (m.map BitVec.toNat)
  | .ok .crcTableReflected => .crcTableReflected (m.map BitVec.toNat)
  | .error _ => .word w.toNat (m.map BitVec.toNat)

end Sys2Proof.Machine
end

