-- ==== Sys2Proof/Safety.lean ====
section
/-! DEFINITION. What claims about this machine are stated in: the slot invariant (R25, R29), the form of a response
(R90), the invariant every step keeps, and a safe run. -/

namespace Sys2Proof.Machine

/-- The slot invariant of one slot (R25), with R29 for a slot that holds nothing: a valid slot holds its polynomial and
the table built from it; a slot that is not valid holds neither. -/
def SlotHolds (c : Conv) (sl : Slot) : Prop :=
  (sl.valid = true → ∃ p, sl.poly = some p ∧ sl.table = cellsOf (builtTable c p)) ∧
  (sl.valid = false → sl.poly = none ∧ sl.table = [])

/-- The slot invariant of both slots (R25). -/
def SlotInvariant (s : State) : Prop := SlotHolds .normal s.slotN ∧ SlotHolds .reflected s.slotR

/-- The table spaces are in canonical form (R30: indices 0..255, each at most once). -/
def StoreCanonical (s : State) : Prop := s.slotN.table.wf ∧ s.slotR.table.wf

/-- The form of a response (R90): OK carries a byte or 256 entries, any other status carries no value. -/
def Response.wellFormed (r : Response) : Prop :=
  match r.value with
  | .none => r.status ≠ .ok
  | .crc _ => r.status = .ok
  | .table es => r.status = .ok ∧ es.length = 256

/-- The state between two commands: the slot invariant holds (R25), no command is running and no message is held
(R17, R28, R31), and every response sent has its form (R90). -/
structure Invariant (s : State) : Prop where
  slots : SlotInvariant s
  noCommand : s.running = none
  noMessage : s.msg = []
  responses : ∀ r ∈ s.outbox, r.wellFormed

/-- A safe run: however many steps the machine takes from `s`, none of them faults or refuses. -/
def SafeFrom (s : State) : Prop := ∀ n, ∃ t : State, Sys2Proof.core.run n s = .next t

/-- A command that takes a message (R16: "CRC command"). -/
def isCrcCommand : Instr → Bool
  | .buildTableNormal _ => false
  | .buildTableReflected _ => false
  | .crcBitwiseNormal _ => true
  | .crcBitwiseReflected _ => true
  | .crcTableNormal => true
  | .crcTableReflected => true

/-- The convention whose slot a command looks up (R22: "Read by"). -/
def slotReadBy : Instr → Option Conv
  | .buildTableNormal _ => none
  | .buildTableReflected _ => none
  | .crcBitwiseNormal _ => none
  | .crcBitwiseReflected _ => none
  | .crcTableNormal => some .normal
  | .crcTableReflected => some .reflected

/-- The convention whose slot a command writes (R22: "Written by"). -/
def slotWrittenBy : Instr → Option Conv
  | .buildTableNormal _ => some .normal
  | .buildTableReflected _ => some .reflected
  | .crcBitwiseNormal _ => none
  | .crcBitwiseReflected _ => none
  | .crcTableNormal => none
  | .crcTableReflected => none

/-- The message of the next command is no longer than MSG_LEN_MAX (R8: `none` is unbounded). -/
def LengthAccepted (s : State) : Prop := ∀ n, s.cfg.msgLenMax = some n → s.msg.length ≤ n

/-- The message of the next command is longer than MSG_LEN_MAX. -/
def LengthTooLong (s : State) : Prop := ∃ n, s.cfg.msgLenMax = some n ∧ n < s.msg.length

/-- Slot `c` holds the table `t`: every one of its 256 entries reads as the entry of `t`. -/
def SlotReads (s : State) (c : Conv) (t : Byte → Byte) : Prop :=
  ∀ i : Byte, (s.slot c).table.read i.toNat = some (t i)

/-- `t` is `s` after a command that responded `{st, v}` and wrote nothing else: every field but the response channel and
the ended command's own state is as before. -/
def RespondedOnly (s : State) (st : Status) (v : Value) (t : State) : Prop :=
  t = { s with msg := [], running := none, outbox := s.outbox ++ [⟨st, v⟩] }

end Sys2Proof.Machine
end

