-- ==== Sys2Proof/Certificates/Slice0/Obligations.lean ====
section
/-! DEFINITION. The statements for the provers. Each docstring names the rules it formalises. -/

open Sys2Proof Sys2Proof.Machine

/-! ### Encoding and decoding -/

/-- The decoding vectors of 95_test_vectors.md (R53, R54), one word a family and kind of rejection; the names of the rejections
are log 21. -/
def Obligations.SpecWordsDecodeAsListed : Prop :=
  decodeWord 0x0002#16 = .ok (.buildTableNormal 0x00#8) ∧
  decodeWord 0x9102#16 = .ok (.buildTableNormal 0x91#8) ∧
  decodeWord 0xFF03#16 = .ok (.buildTableReflected 0xFF#8) ∧
  decodeWord 0x9104#16 = .ok (.crcBitwiseNormal 0x91#8) ∧
  decodeWord 0x0705#16 = .ok (.crcBitwiseReflected 0x07#8) ∧
  decodeWord 0x0006#16 = .ok .crcTableNormal ∧
  decodeWord 0x0007#16 = .ok .crcTableReflected ∧
  decodeWord 0x0000#16 = .error .reservedKind ∧
  decodeWord 0x9101#16 = .error .reservedKind ∧
  decodeWord 0x0106#16 = .error .tablePoly ∧
  decodeWord 0xFF07#16 = .error .tablePoly ∧
  decodeWord 0x0008#16 = .error .reservedBits ∧
  decodeWord 0xFFFF#16 = .error .reservedBits

/-- Decoding an encoded command gives it back, on words and on the two serial bytes whatever follows them; and a word
that decodes to a command is its only encoding (R52, R54, D6). -/
def Obligations.DecodeAndEncodeAgree : Prop :=
  (∀ i : Instr, decodeWord (encode i) = .ok i) ∧
  (∀ (i : Instr) (rest : List Byte), decodeBytes (encodeBytes i ++ rest) = .ok (i, rest)) ∧
  (∀ (w : Cmd) (i : Instr), decodeWord w = .ok i → encode i = w)

/-- The opcode map (R54): a word decodes to a command iff a row admits it, the row is that command's, the rows are
disjoint, and they hold 256 or 1 words each and 1,026 together. -/
def Obligations.LegalWordsAreTheOpcodeMap : Prop :=
  opcodeMap.map (fun r => (r.mnemonic, r.pattern, r.mask)) =
    [ ("build_table_normal", 0x0002#16, 0x00FF#16), ("build_table_reflected", 0x0003#16, 0x00FF#16),
      ("crc_bitwise_normal", 0x0004#16, 0x00FF#16), ("crc_bitwise_reflected", 0x0005#16, 0x00FF#16),
      ("crc_table_normal", 0x0006#16, 0xFFFF#16), ("crc_table_reflected", 0x0007#16, 0xFFFF#16) ] ∧
  (∀ w : Cmd, isLegal w = true ↔ ∃ r ∈ opcodeMap, r.admits w = true) ∧
  (∀ (w : Cmd) (i : Instr), decodeWord w = .ok i → ∀ r ∈ opcodeMap, r.admits w = true → r.mnemonic = i.mnemonic) ∧
  (∀ r ∈ opcodeMap, ∀ q ∈ opcodeMap, ∀ w : Cmd, r.admits w = true → q.admits w = true → r = q) ∧
  opcodeMap.map (fun r => (List.range 65536).countP fun n => r.admits (BitVec.ofNat 16 n)) =
    [256, 256, 256, 256, 1, 1] ∧
  (List.range 65536).countP (fun n => isLegal (BitVec.ofNat 16 n)) = 1026

/-- The illegal words (R55): exactly the three classes, by OPC and POLY, each with its number of words, 64,510 together; each
ends its command with ILLEGAL_COMMAND, whatever the message, and writes no state. -/
def Obligations.IllegalWordsAnswerIllegalCommand : Prop :=
  (∀ w : Cmd, isLegal w = false ↔
    (opcField w = 0x00#8 ∨ opcField w = 0x01#8) ∨ 0x08 ≤ (opcField w).toNat ∨
    ((opcField w = 0x06#8 ∨ opcField w = 0x07#8) ∧ polyField w ≠ 0x00#8)) ∧
  (List.range 65536).countP (fun n => decide (opcField (BitVec.ofNat 16 n) = 0x00#8 ∨ opcField (BitVec.ofNat 16 n) = 0x01#8)) =
    512 ∧
  (List.range 65536).countP (fun n => decide (0x08 ≤ (opcField (BitVec.ofNat 16 n)).toNat)) = 63488 ∧
  (List.range 65536).countP (fun n => decide ((opcField (BitVec.ofNat 16 n) = 0x06#8 ∨ opcField (BitVec.ofNat 16 n) = 0x07#8) ∧
    polyField (BitVec.ofNat 16 n) ≠ 0x00#8)) = 510 ∧
  (List.range 65536).countP (fun n => !isLegal (BitVec.ofNat 16 n)) = 64510 ∧
  (∀ (s : State) (w : Cmd) (m : List Byte) (rest : List HostEvent), s.inbox = .command w m :: rest →
    isLegal w = false →
    step s = .next { s with
      msg := [], running := none, inbox := rest, outbox := s.outbox ++ [⟨.illegalCommand, .none⟩] })

/-- The polynomial operand (R50): P is CMD[15:8] as an unsigned number, in each of the four commands that have one, and
all 256 values are legal in each. -/
def Obligations.PolynomialOperandIsTheUpperByte : Prop :=
  (∀ (w : Cmd) (p : Byte), decodeWord w = .ok (.buildTableNormal p) ∨ decodeWord w = .ok (.buildTableReflected p) ∨
    decodeWord w = .ok (.crcBitwiseNormal p) ∨ decodeWord w = .ok (.crcBitwiseReflected p) →
    p.toNat = w.toNat / 256) ∧
  (∀ p : Byte, (∃ w, decodeWord w = .ok (.buildTableNormal p)) ∧ (∃ w, decodeWord w = .ok (.buildTableReflected p)) ∧
    (∃ w, decodeWord w = .ok (.crcBitwiseNormal p)) ∧ (∃ w, decodeWord w = .ok (.crcBitwiseReflected p)))

/-- The serial order of a command word (R52): byte 0 is the word modulo 256, byte 1 the word divided by 256, and the two
bytes give the word back. -/
def Obligations.CommandWordTravelsLowByteFirst : Prop :=
  ∀ w : Cmd, bytesOfWord w = [BitVec.ofNat 8 (w.toNat % 256), BitVec.ofNat 8 (w.toNat / 256)] ∧
    ∀ b0 b1 : Byte, bytesOfWord w = [b0, b1] → wordOfBytes b0 b1 = w

/-! ### The step, idling and reset -/

/-- A step runs the decoded command on the message issued with it, with the rest of the channel waiting (R40, R41, R47);
so does the word that withFetchWord places, with an empty message. -/
def Obligations.StepRunsTheDecodedCommand : Prop :=
  (∀ (s : State) (w : Cmd) (m : List Byte) (rest : List HostEvent) (i : Instr),
    s.inbox = .command w m :: rest → decodeWord w = .ok i →
    step s = exec i { s with msg := m, inbox := rest }) ∧
  (∀ (s : State) (nbits w : Nat) (i : Instr), decodeTableWord nbits w = some i →
    step (s.withFetchWord nbits w) = exec i { s with msg := [] })

/-- With nothing issued the core keeps its state (R104, R109; that this is a step of the model is log 4). -/
def Obligations.IdleCoreKeepsItsState : Prop := ∀ s : State, s.inbox = [] → step s = .next s

/-- The state after reset (R28): both valid bits 0, POLY and every table entry absent, no command running and none of its
state or message, and every legal command answered with another status than ILLEGAL_COMMAND from that state. -/
def Obligations.ResetLeavesNoTableAndNoCommand : Prop :=
  State.reset.slotN.valid = false ∧ State.reset.slotR.valid = false ∧
  State.reset.slotN.poly = none ∧ State.reset.slotR.poly = none ∧
  (∀ i : Byte, State.reset.slotN.table.read i.toNat = none ∧ State.reset.slotR.table.read i.toNat = none) ∧
  State.reset.running = none ∧ State.reset.msg = [] ∧
  (∀ (w : Cmd) (m : List Byte), isLegal w = true →
    ∃ (t : State) (r : Response), step { State.reset with inbox := [.command w m] } = .next t ∧ t.outbox = [r] ∧
      r.status ≠ .illegalCommand)

/-- The reset step (R107): whatever the state, VALID[N] and VALID[R] are 0 after it, POLY and every table entry are absent,
and no command is in progress; a build or a bitwise command issued next completes with OK and a table command with
NO_TABLE, where the message is within MSG_LEN_MAX. (That the channel and the parameter are kept is log 10.) -/
def Obligations.ResetEventEmptiesTheStore : Prop :=
  ∀ (s : State) (rest : List HostEvent), s.inbox = .reset :: rest →
    ∃ t, step s = .next t ∧
      t.slotN.valid = false ∧ t.slotR.valid = false ∧ t.slotN.poly = none ∧ t.slotR.poly = none ∧
      (∀ i : Nat, t.slotN.table.read i = none ∧ t.slotR.table.read i = none) ∧
      t.running = none ∧ t.msg = [] ∧ t.cfg = s.cfg ∧ t.inbox = rest ∧ t.outbox = s.outbox ∧
      (∀ (i : Instr) (m : List Byte), LengthAccepted { t with msg := m } →
        ∃ (u : State) (r : Response), exec i { t with msg := m } = .next u ∧ u.outbox = s.outbox ++ [r] ∧
          r.status = (match slotReadBy i with | none => .ok | some _ => .noTable))

/-- A reset during a command (R108), after any number of its micro-operations: the command sends no response and leaves no
effect; the state is the one a reset in the command's place leaves. That a reset comes at the boundary of a micro-operation
is the model's choice (log 9), and so is that it keeps the channel (log 10). -/
def Obligations.ResetDuringACommandLeavesNoTrace : Prop :=
  ∀ (s : State) (w : Cmd) (m : List Byte) (n : Nat) (rest : List HostEvent), Invariant s →
    s.inbox = .resetDuring w m n :: rest →
    ∃ t, step s = .next t ∧ t.outbox = s.outbox ∧ t.slotN = Slot.empty ∧ t.slotR = Slot.empty ∧
      t.running = none ∧ t.msg = [] ∧ step { s with inbox := .reset :: rest } = .next t

/-! ### The division step -/

/-- The division steps as numbers (R60, R62): the normal step doubles, drops bit 7 and XORs P iff bit 7 was set; the
reflected step halves and XORs P iff bit 0 was set. -/
def Obligations.DivisionStepsTestShiftAndXor : Prop :=
  ∀ r p : Byte,
    (128 ≤ r.toNat → (stepN r p).toNat = (2 * r.toNat - 256) ^^^ p.toNat) ∧
    (r.toNat < 128 → (stepN r p).toNat = 2 * r.toNat) ∧
    (r.toNat % 2 = 1 → (stepR r p).toNat = (r.toNat / 2) ^^^ p.toNat) ∧
    (r.toNat % 2 = 0 → (stepR r p).toNat = r.toNat / 2)

/-- Entry 0 of every table is 0x00 (R68), and with P = 0x00 every entry is (R69). -/
def Obligations.ZeroIndexAndZeroPolynomialGiveZero : Prop :=
  (∀ p : Byte, divN 0x00#8 p = 0x00#8 ∧ divR 0x00#8 p = 0x00#8 ∧ buildN p 0x00#8 = 0x00#8 ∧ buildR p 0x00#8 = 0x00#8) ∧
  (∀ r : Byte, divN r 0x00#8 = 0x00#8 ∧ divR r 0x00#8 = 0x00#8 ∧ buildN 0x00#8 r = 0x00#8 ∧ buildR 0x00#8 r = 0x00#8)

/-- The division steps, the byte divisions and the tables are linear (R70). -/
def Obligations.DivisionIsLinear : Prop :=
  ∀ a b p : Byte,
    stepN (a ^^^ b) p = stepN a p ^^^ stepN b p ∧ stepR (a ^^^ b) p = stepR a p ^^^ stepR b p ∧
    divN (a ^^^ b) p = divN a p ^^^ divN b p ∧ divR (a ^^^ b) p = divR a p ^^^ divR b p ∧
    buildN p (a ^^^ b) = buildN p a ^^^ buildN p b ∧ buildR p (a ^^^ b) = buildR p a ^^^ buildR p b

/-! ### The six commands -/

/-- `build_table_normal P` (R66): it completes from every state; slot N is valid, holds P and the 256 entries divN(i, P);
the response is OK with those entries, entry 0 first; nothing else changes. With the corner cases and the example of R66. -/
def Obligations.BuildTableNormalInstallsAndReturnsItsTable : Prop :=
  (∀ (p : Byte) (s : State), ∃ (t : State) (es : List Byte), exec (.buildTableNormal p) s = .next t ∧
    t.slotN.valid = true ∧ t.slotN.poly = some p ∧ SlotReads t .normal (fun i => divN i p) ∧
    t.slotR = s.slotR ∧ t.cfg = s.cfg ∧ t.inbox = s.inbox ∧ t.running = none ∧ t.msg = [] ∧
    t.outbox = s.outbox ++ [⟨.ok, .table es⟩] ∧ es.length = 256 ∧
    (∀ i : Byte, es[i.toNat]? = some (divN i p))) ∧
  (∀ p : Byte, (encode (.buildTableNormal p)).toNat = 256 * p.toNat + 0x02) ∧
  (∀ p i : Byte, divN 0x00#8 p = 0x00#8 ∧ divN 0x01#8 p = p ∧ divN i 0x00#8 = 0x00#8) ∧
  (divN 0x01#8 0x91#8 = 0x91#8 ∧ divN 0x80#8 0x91#8 = 0x25#8 ∧ divN 0xFF#8 0x91#8 = 0xC6#8)

/-- `build_table_reflected P` (R67): as R66 with slot R and divR; T'[0x80] = P. -/
def Obligations.BuildTableReflectedInstallsAndReturnsItsTable : Prop :=
  (∀ (p : Byte) (s : State), ∃ (t : State) (es : List Byte), exec (.buildTableReflected p) s = .next t ∧
    t.slotR.valid = true ∧ t.slotR.poly = some p ∧ SlotReads t .reflected (fun i => divR i p) ∧
    t.slotN = s.slotN ∧ t.cfg = s.cfg ∧ t.inbox = s.inbox ∧ t.running = none ∧ t.msg = [] ∧
    t.outbox = s.outbox ++ [⟨.ok, .table es⟩] ∧ es.length = 256 ∧
    (∀ i : Byte, es[i.toNat]? = some (divR i p))) ∧
  (∀ p : Byte, (encode (.buildTableReflected p)).toNat = 256 * p.toNat + 0x03) ∧
  (∀ p i : Byte, divR 0x00#8 p = 0x00#8 ∧ divR 0x80#8 p = p ∧ divR i 0x00#8 = 0x00#8) ∧
  (divR 0x01#8 0x91#8 = 0x54#8 ∧ divR 0x80#8 0x91#8 = 0x91#8 ∧ divR 0xFF#8 0x91#8 = 0x33#8)

/-- A rebuild (R71): two builds of one convention and P, from any two states, write equal slots and return equal
responses. -/
def Obligations.BuildsAreFunctionsOfThePolynomial : Prop :=
  ∀ (p : Byte) (s t : State), ∃ s' t' r,
    (exec (.buildTableNormal p) s = .next s' ∧ exec (.buildTableNormal p) t = .next t' ∧ s'.slotN = t'.slotN ∧
      s'.outbox = s.outbox ++ [r] ∧ t'.outbox = t.outbox ++ [r]) ∧
    ∃ s'' t'' q, exec (.buildTableReflected p) s = .next s'' ∧ exec (.buildTableReflected p) t = .next t'' ∧
      s''.slotR = t''.slotR ∧ s''.outbox = s.outbox ++ [q] ∧ t''.outbox = t.outbox ++ [q]

/-- A build reads no message and checks no length (R47, D13): with any message and any MSG_LEN_MAX it does the same. -/
def Obligations.BuildIgnoresMessageAndLengthBound : Prop :=
  ∀ (p : Byte) (s t : State) (m : List Byte) (b : Option Nat),
    (exec (.buildTableNormal p) s = .next t →
      exec (.buildTableNormal p) { s with msg := m, cfg := ⟨b⟩ } = .next { t with cfg := ⟨b⟩ }) ∧
    (exec (.buildTableReflected p) s = .next t →
      exec (.buildTableReflected p) { s with msg := m, cfg := ⟨b⟩ } = .next { t with cfg := ⟨b⟩ })

/-- `crc_bitwise_normal M, P` (R74): within the length bound it completes with OK and crcBN(M, P); above it, with
LENGTH_ERROR and no value; nothing else changes, and no table is needed. With the encoding, the corner cases and the example
of R74. -/
def Obligations.CrcBitwiseNormalRespondsItsCrc : Prop :=
  (∀ (p : Byte) (s : State), LengthAccepted s →
    ∃ t, exec (.crcBitwiseNormal p) s = .next t ∧ RespondedOnly s .ok (.crc (crcBN s.msg p)) t) ∧
  (∀ (p : Byte) (s : State), LengthTooLong s →
    ∃ t, exec (.crcBitwiseNormal p) s = .next t ∧ RespondedOnly s .lengthError .none t) ∧
  (∀ p : Byte, (encode (.crcBitwiseNormal p)).toNat = 256 * p.toNat + 0x04) ∧
  (∀ (m : List Byte) (p b : Byte), crcBN [] p = 0x00#8 ∧ crcBN m 0x00#8 = 0x00#8 ∧
    crcBN (0x00#8 :: m) p = crcBN m p ∧ crcBN [b] p = buildN p b ∧ crcBN (m ++ [crcBN m p]) p = 0x00#8) ∧
  crcBN [0xFF#8] 0x91#8 = 0xC6#8 ∧ crcBN [0xFF#8, 0x00#8] 0x91#8 = 0xBB#8 ∧
  crcBN [0xFF#8, 0x00#8, 0xAB#8] 0x91#8 = 0xFE#8

/-- `crc_bitwise_reflected M, P` (R75): as R74 with crcBR, which takes the last byte of the message first. -/
def Obligations.CrcBitwiseReflectedRespondsItsCrc : Prop :=
  (∀ (p : Byte) (s : State), LengthAccepted s →
    ∃ t, exec (.crcBitwiseReflected p) s = .next t ∧ RespondedOnly s .ok (.crc (crcBR s.msg p)) t) ∧
  (∀ (p : Byte) (s : State), LengthTooLong s →
    ∃ t, exec (.crcBitwiseReflected p) s = .next t ∧ RespondedOnly s .lengthError .none t) ∧
  (∀ p : Byte, (encode (.crcBitwiseReflected p)).toNat = 256 * p.toNat + 0x05) ∧
  (∀ (m : List Byte) (p b : Byte), crcBR [] p = 0x00#8 ∧ crcBR m 0x00#8 = 0x00#8 ∧
    crcBR (m ++ [0x00#8]) p = crcBR m p ∧ crcBR [b] p = buildR p b) ∧
  crcBR [0xAB#8] 0x91#8 = 0x76#8 ∧ crcBR [0x00#8, 0xAB#8] 0x91#8 = 0x10#8 ∧
  crcBR [0xFF#8, 0x00#8, 0xAB#8] 0x91#8 = 0xDC#8 ∧ crcBR [0xAB#8, 0x00#8, 0xFF#8] 0x91#8 = 0xFE#8

/-- `crc_table_normal M` (R83): within the length bound, on a valid slot N that holds the table T, it completes with OK and
crcTN(M, T); on a slot that is not valid, with NO_TABLE, even for an empty message; above the bound, with LENGTH_ERROR
whatever the slot; nothing else changes. -/
def Obligations.CrcTableNormalRespondsItsCrc : Prop :=
  (∀ (s : State) (t : Byte → Byte), LengthAccepted s → s.slotN.valid = true → SlotReads s .normal t →
    ∃ u, exec .crcTableNormal s = .next u ∧ RespondedOnly s .ok (.crc (crcTN s.msg t)) u) ∧
  (∀ s : State, LengthAccepted s → s.slotN.valid = false →
    ∃ u, exec .crcTableNormal s = .next u ∧ RespondedOnly s .noTable .none u) ∧
  (∀ s : State, LengthTooLong s →
    ∃ u, exec .crcTableNormal s = .next u ∧ RespondedOnly s .lengthError .none u) ∧
  encode .crcTableNormal = 0x0006#16 ∧
  (∀ (m : List Byte) (p : Byte) (t : Byte → Byte), crcTN [] t = 0x00#8 ∧ crcTN m (buildN p) = crcBN m p) ∧
  buildN 0x91#8 0xFF#8 = 0xC6#8 ∧ buildN 0x91#8 0xC6#8 = 0xBB#8 ∧ buildN 0x91#8 0x10#8 = 0xFE#8 ∧
  crcTN [0xFF#8, 0x00#8, 0xAB#8] (buildN 0x91#8) = 0xFE#8

/-- `crc_table_reflected M` (R84): as R83 with slot R and crcTR, which takes the last byte of the message first. VALID[N]
does not stand in for VALID[R]. -/
def Obligations.CrcTableReflectedRespondsItsCrc : Prop :=
  (∀ (s : State) (t : Byte → Byte), LengthAccepted s → s.slotR.valid = true → SlotReads s .reflected t →
    ∃ u, exec .crcTableReflected s = .next u ∧ RespondedOnly s .ok (.crc (crcTR s.msg t)) u) ∧
  (∀ s : State, LengthAccepted s → s.slotR.valid = false →
    ∃ u, exec .crcTableReflected s = .next u ∧ RespondedOnly s .noTable .none u) ∧
  (∀ s : State, LengthTooLong s →
    ∃ u, exec .crcTableReflected s = .next u ∧ RespondedOnly s .lengthError .none u) ∧
  encode .crcTableReflected = 0x0007#16 ∧
  (∀ (m : List Byte) (p : Byte) (t : Byte → Byte), crcTR [] t = 0x00#8 ∧ crcTR m (buildR p) = crcBR m p) ∧
  buildR 0x91#8 0xAB#8 = 0x76#8 ∧ buildR 0x91#8 0x76#8 = 0x10#8 ∧ buildR 0x91#8 0xEF#8 = 0xDC#8 ∧
  crcTR [0xFF#8, 0x00#8, 0xAB#8] (buildR 0x91#8) = 0xDC#8 ∧ crcTR [0xAB#8, 0x00#8, 0xFF#8] (buildR 0x91#8) = 0xFE#8

/-! ### Laws of the engines -/

/-- Empty and one-byte messages (R76, R77, R88): a table command with an empty message on a valid slot responds OK, 0x00,
whatever the slot holds. -/
def Obligations.EmptyAndOneByteMessages : Prop :=
  (∀ p : Byte, crcBN [] p = 0x00#8 ∧ crcBR [] p = 0x00#8) ∧
  (∀ p b : Byte, crcBN [b] p = divN b p ∧ crcBN [b] p = buildN p b ∧ crcBR [b] p = divR b p ∧ crcBR [b] p = buildR p b) ∧
  (∀ t : Byte → Byte, crcTN [] t = 0x00#8 ∧ crcTR [] t = 0x00#8) ∧
  (∀ s : State, s.msg = [] →
    (s.slotN.valid = true → ∃ t, exec .crcTableNormal s = .next t ∧ RespondedOnly s .ok (.crc 0x00#8) t) ∧
    (s.slotR.valid = true → ∃ t, exec .crcTableReflected s = .next t ∧ RespondedOnly s .ok (.crc 0x00#8) t))

/-- Composition (R78): the normal engine carries its accumulator from A into B, the reflected one from B into A. -/
def Obligations.CrcOfAConcatenationCarriesTheAccumulator : Prop :=
  ∀ (a b : List Byte) (p : Byte),
    crcBN (a ++ b) p = b.foldl (fun x y => divN (x ^^^ y) p) (crcBN a p) ∧
    crcBR (a ++ b) p = a.reverse.foldl (fun x y => divR (x ^^^ y) p) (crcBR b p)

/-- Residue (R79): the check byte after the message, or before it for the reflected engine, gives 0x00. -/
def Obligations.ResidueIsZero : Prop :=
  ∀ (m : List Byte) (p : Byte), crcBN (m ++ [crcBN m p]) p = 0x00#8 ∧ crcBR (crcBR m p :: m) p = 0x00#8

/-- Zero laws (R80): P = 0x00 gives 0x00; a 0x00 byte consumed first changes nothing; zero bytes alone give 0x00. -/
def Obligations.ZeroBytesAndZeroPolynomialLaws : Prop :=
  ∀ (m : List Byte) (p : Byte) (n : Nat),
    crcBN m 0x00#8 = 0x00#8 ∧ crcBR m 0x00#8 = 0x00#8 ∧
    crcBN (0x00#8 :: m) p = crcBN m p ∧ crcBR (m ++ [0x00#8]) p = crcBR m p ∧
    crcBN (List.replicate n 0x00#8) p = 0x00#8 ∧ crcBR (List.replicate n 0x00#8) p = 0x00#8

/-- The bitwise and the table-driven function of a convention are equal on the table of the polynomial (R85, R86). -/
def Obligations.PureEnginesAgree : Prop :=
  ∀ (m : List Byte) (p : Byte), crcBN m p = crcTN m (buildN p) ∧ crcBR m p = crcTR m (buildR p)

/-- Command-level equivalence (R87): where the slot is valid and built from P, the table command and the bitwise command of
its convention do the same, status, value and state, whatever the message; in particular in every state whose slot is still
the one a build of that convention left. It does not extend across conventions. -/
def Obligations.TableAndBitwiseCommandsAgree : Prop :=
  (∀ (s : State) (p : Byte), SlotInvariant s →
    (s.slotN.valid = true → s.slotN.poly = some p → exec .crcTableNormal s = exec (.crcBitwiseNormal p) s) ∧
    (s.slotR.valid = true → s.slotR.poly = some p → exec .crcTableReflected s = exec (.crcBitwiseReflected p) s)) ∧
  (∀ (s t u : State) (p : Byte),
    (exec (.buildTableNormal p) s = .next t → u.slotN = t.slotN →
      exec .crcTableNormal u = exec (.crcBitwiseNormal p) u) ∧
    (exec (.buildTableReflected p) s = .next t → u.slotR = t.slotR →
      exec .crcTableReflected u = exec (.crcBitwiseReflected p) u)) ∧
  crcBN [0x01#8] 0x91#8 = 0x91#8 ∧ crcBR [0x01#8] 0x91#8 = 0x54#8

/-- No polynomial check (R89): whatever POLY holds, a table command answers the same, and leaves it. -/
def Obligations.TableCommandsDoNotReadPoly : Prop :=
  ∀ (s t : State) (q : Option Byte),
    (exec .crcTableNormal s = .next t →
      exec .crcTableNormal { s with slotN := { s.slotN with poly := q } } =
        .next { t with slotN := { t.slotN with poly := q } }) ∧
    (exec .crcTableReflected s = .next t →
      exec .crcTableReflected { s with slotR := { s.slotR with poly := q } } =
        .next { t with slotR := { t.slotR with poly := q } })

/-! ### Statuses and responses -/

/-- A raised status (R91): a command that responds with a status other than OK writes no persistent state, gives no value,
and has read no message byte: with any other message of that length it responds the same. An illegal word does the same
whatever its message. -/
def Obligations.FailedCommandsWriteAndReadNothing : Prop :=
  (∀ (i : Instr) (s t : State) (st : Status) (v : Value), exec i s = .next t → st ≠ .ok →
    t.outbox = s.outbox ++ [⟨st, v⟩] →
    v = .none ∧ RespondedOnly s st .none t ∧
    (∀ m : List Byte, m.length = s.msg.length → exec i { s with msg := m } = .next t)) ∧
  (∀ (w : Cmd) (s : State), isLegal w = false →
    ∃ t, RespondedOnly s .illegalCommand .none t ∧ ∀ m : List Byte, runWord w { s with msg := m } = .next t)

/-- The statuses (R92) and their priority (R94), from any state that holds the slot invariant: ILLEGAL_COMMAND for a word that
decodes to nothing; else LENGTH_ERROR for a CRC command above the bound; else NO_TABLE for a table command whose slot is
not valid; else OK. Their codes are two bits. With MSG_LEN_MAX unbounded LENGTH_ERROR never occurs. -/
def Obligations.StatusesFollowTheirCausesInPriority : Prop :=
  (Status.ok.code = 0b00#2 ∧ Status.illegalCommand.code = 0b01#2 ∧ Status.noTable.code = 0b10#2 ∧
    Status.lengthError.code = 0b11#2) ∧
  (∀ (s : State) (w : Cmd) (m : List Byte) (rest : List HostEvent), SlotInvariant s → s.inbox = .command w m :: rest →
    ∃ (t : State) (r : Response), step s = .next t ∧ t.outbox = s.outbox ++ [r] ∧
      (isLegal w = false → r.status = .illegalCommand) ∧
      (∀ i, decodeWord w = .ok i →
        (isCrcCommand i = true → LengthTooLong { s with msg := m } → r.status = .lengthError) ∧
        (isCrcCommand i = true → LengthAccepted { s with msg := m } →
          ∀ c, slotReadBy i = some c → (s.slot c).valid = false → r.status = .noTable) ∧
        (isCrcCommand i = true → LengthAccepted { s with msg := m } →
          (∀ c, slotReadBy i = some c → (s.slot c).valid = true) → r.status = .ok) ∧
        (isCrcCommand i = false → r.status = .ok) ∧
        (r.status = .ok → isCrcCommand i = true → ∃ b : Byte, r.value = .crc b) ∧
        (r.status = .ok → isCrcCommand i = false → ∃ es : List Byte, r.value = .table es ∧ es.length = 256)) ∧
      (r.status ≠ .ok → r.value = .none) ∧
      (s.cfg.msgLenMax = none → r.status ≠ .lengthError))

/-- The response (R90): a command that answers a next state sends exactly one, after the earlier ones; its value is a byte for
a CRC command with OK, 256 bytes for a build with OK, and none with any other status. -/
def Obligations.EveryCommandSendsOneResponseOfItsForm : Prop :=
  ∀ (i : Instr) (s t : State), exec i s = .next t →
    ∃ r : Response, t.outbox = s.outbox ++ [r] ∧
      (r.status = .ok → isCrcCommand i = true → ∃ b : Byte, r.value = .crc b) ∧
      (r.status = .ok → isCrcCommand i = false → ∃ es : List Byte, r.value = .table es ∧ es.length = 256) ∧
      (r.status ≠ .ok → r.value = .none)

/-- Responses leave in command order (R40, R90, R117): `n` commands issued from an invariant state take `n` steps and give
`n` responses, the k-th of them the one the k-th step appends. -/
def Obligations.ResponsesLeaveInCommandOrder : Prop :=
  ∀ (s : State) (cmds : List (Cmd × List Byte)) (rest : List HostEvent), Invariant s →
    s.inbox = cmds.map (fun c => HostEvent.command c.1 c.2) ++ rest →
    ∃ rs : List Response, rs.length = cmds.length ∧
      ∀ k ≤ cmds.length, ∃ t : State, Sys2Proof.core.run k s = .next t ∧ t.outbox = s.outbox ++ rs.take k ∧
        t.inbox = (cmds.drop k).map (fun c => HostEvent.command c.1 c.2) ++ rest

/-! ### Memory primitives and transient state -/

/-- The message read primitive (R36): byte m_k inside the message and a fault outside it; and the commands read only inside
the message. -/
def Obligations.MessageReadsStayInsideTheMessage : Prop :=
  (∀ (s : State) (k : Nat) (h : k < s.msg.length), readMessage s k = .ok s.msg[k]) ∧
  (∀ (s : State) (k : Nat), s.msg.length ≤ k → readMessage s k = .error .messageOutOfRange) ∧
  (∀ (i : Instr) (n k : Nat), MicroOp.absorb k ∈ opsOf i n ∨ MicroOp.lookupByte k ∈ opsOf i n → k < n)

/-- The table primitives (R37): a written entry reads back; no other entry, no other slot and nothing else changes; and the
canonical form of the space is kept. -/
def Obligations.TableReadAfterWrite : Prop :=
  ∀ (s : State) (c : Conv) (i v : Byte),
    readTable (writeTable s c i v) c i = .ok v ∧
    (∀ (d : Conv) (j : Byte), (d, j) ≠ (c, i) → readTable (writeTable s c i v) d j = readTable s d j) ∧
    (∀ d : Conv, d ≠ c → (writeTable s c i v).slot d = s.slot d) ∧
    ((writeTable s c i v).slot c).valid = (s.slot c).valid ∧ ((writeTable s c i v).slot c).poly = (s.slot c).poly ∧
    (writeTable s c i v).msg = s.msg ∧ (writeTable s c i v).running = s.running ∧
    (writeTable s c i v).outbox = s.outbox ∧ (writeTable s c i v).inbox = s.inbox ∧ (writeTable s c i v).cfg = s.cfg ∧
    ((s.slot c).table.wf → ((writeTable s c i v).slot c).table.wf)

/-- The atomic update that ends a build is its 256 writes in index order with POLY and VALID (R37, R66): on a slot in
canonical form, whatever it holds, the result is the same state. -/
def Obligations.AtomicUpdateIsThe256Writes : Prop :=
  ∀ (s : State) (c : Conv) (p : Byte) (t : Byte → Byte), (s.slot c).table.wf →
    ∃ u, u = (List.range 256).foldl (fun x i => writeTable x c (BitVec.ofNat 8 i) (t (BitVec.ofNat 8 i))) s ∧
      install s c p (cellsOf t) = u.setSlot c { u.slot c with valid := true, poly := some p }

/-- A table read of an entry with no value is a fault, never a value (R29): so a table command on a slot that claims to be
valid but has no entry where the first lookup falls stops with that fault. -/
def Obligations.ReadOfAnAbsentEntryFaults : Prop :=
  (∀ (s : State) (c : Conv) (i : Byte), (s.slot c).table.read i.toNat = none → readTable s c i = .error .absentEntry) ∧
  (∀ (s : State) (b : Byte) (m : List Byte), LengthAccepted s → s.slotN.valid = true → s.msg = b :: m →
    s.slotN.table.read b.toNat = none → exec .crcTableNormal s = .fault .absentEntry) ∧
  (∀ (s : State) (b : Byte) (m : List Byte), LengthAccepted s → s.slotR.valid = true → s.msg = m ++ [b] →
    s.slotR.table.read b.toNat = none → exec .crcTableReflected s = .fault .absentEntry)

/-- While a command runs nothing but its transient state has changed (R37, R91, R108): the slots, the channel and the message
are as at its start, however far it got. -/
def Obligations.RunningCommandsChangeOnlyTransientState : Prop :=
  ∀ (s t : State) (w : Cmd) (n : Nat), inProgress w n s = .ok t → t = { s with running := t.running }

/-- The transient state of a running command (R20): REFL and P as latched from the word, k inside the message, j in 0..7,
i in 0..255. Every legal command whose check passes has it, each kind its own; an illegal word and a command whose check
fails have none and are found at their start. (The values before first use are log 8.) -/
def Obligations.TransientStateStaysInRange : Prop :=
  ∀ (s t : State) (w : Cmd) (n : Nat), inProgress w n s = .ok t →
    (isLegal w = false → t = s) ∧
    ∀ i : Instr, decodeWord w = .ok i →
      (∀ st : Status, checkOf i s = some st → t = s) ∧
      (checkOf i s = none → isCrcCommand i = true →
        ∃ r : CrcRun, t.running = some (.crc r) ∧ r.refl = reflField w ∧ r.poly = polyField w ∧ r.j < 8 ∧
          (r.k < s.msg.length ∨ (s.msg = [] ∧ r.k = 0))) ∧
      (checkOf i s = none → isCrcCommand i = false →
        ∃ r : BuildRun, t.running = some (.build r) ∧ r.refl = reflField w ∧ r.poly = polyField w ∧ r.j < 8 ∧ r.i < 256)

/-- The accumulator after each byte (R18, R74, R75, R83, R84): 0x00 at the start, and after n bytes the CRC of the bytes
consumed, for each of the four CRC commands. -/
def Obligations.AccumulatorIsTheCrcOfTheBytesConsumed : Prop :=
  ∀ (s : State) (w : Cmd) (n : Nat), n ≤ s.msg.length → LengthAccepted s →
    (∀ p, decodeWord w = .ok (.crcBitwiseNormal p) →
      ∃ (t : State) (r : CrcRun), inProgress w (9 * n) s = .ok t ∧ t.running = some (.crc r) ∧
        r.acc = crcBN (s.msg.take n) p) ∧
    (∀ p, decodeWord w = .ok (.crcBitwiseReflected p) →
      ∃ (t : State) (r : CrcRun), inProgress w (9 * n) s = .ok t ∧ t.running = some (.crc r) ∧
        r.acc = crcBR (s.msg.drop (s.msg.length - n)) p) ∧
    (∀ tab, decodeWord w = .ok .crcTableNormal → s.slotN.valid = true → SlotReads s .normal tab →
      ∃ (t : State) (r : CrcRun), inProgress w n s = .ok t ∧ t.running = some (.crc r) ∧
        r.acc = crcTN (s.msg.take n) tab) ∧
    (∀ tab, decodeWord w = .ok .crcTableReflected → s.slotR.valid = true → SlotReads s .reflected tab →
      ∃ (t : State) (r : CrcRun), inProgress w (2 * n) s = .ok t ∧ t.running = some (.crc r) ∧
        r.acc = crcTR (s.msg.drop (s.msg.length - n)) tab)

/-- The operation counts (R118): a build does 2048 division steps and makes 256 entries and reads nothing; a bitwise command
does 8N division steps and N message reads; a table command N table reads and N message reads. -/
def Obligations.OperationCountsAreThoseOfTheLoops : Prop :=
  (∀ (p : Byte) (n : Nat), ∀ i ∈ [Instr.buildTableNormal p, Instr.buildTableReflected p],
    (opsOf i n).countP MicroOp.isDivision = 2048 ∧ (opsOf i n).countP MicroOp.readsTable = 0 ∧
    (opsOf i n).countP MicroOp.makesEntry = 256 ∧ (opsOf i n).countP MicroOp.readsMessage = 0) ∧
  (∀ (p : Byte) (n : Nat), ∀ i ∈ [Instr.crcBitwiseNormal p, Instr.crcBitwiseReflected p],
    (opsOf i n).countP MicroOp.isDivision = 8 * n ∧ (opsOf i n).countP MicroOp.readsTable = 0 ∧
    (opsOf i n).countP MicroOp.makesEntry = 0 ∧ (opsOf i n).countP MicroOp.readsMessage = n) ∧
  (∀ n : Nat, ∀ i ∈ [Instr.crcTableNormal, Instr.crcTableReflected],
    (opsOf i n).countP MicroOp.isDivision = 0 ∧ (opsOf i n).countP MicroOp.readsTable = n ∧
    (opsOf i n).countP MicroOp.makesEntry = 0 ∧ (opsOf i n).countP MicroOp.readsMessage = n)

/-! ### Frames and whole-machine rules -/

/-- The CRC commands write no persistent state (R18, R42): whatever they respond, every entry of both slots reads as before,
and the slots, the parameter and the channel's other end are unchanged. -/
def Obligations.CrcCommandsLeaveTheStoreAlone : Prop :=
  ∀ (i : Instr) (s t : State), isCrcCommand i = true → exec i s = .next t →
    t.slotN = s.slotN ∧ t.slotR = s.slotR ∧ t.cfg = s.cfg ∧ t.inbox = s.inbox ∧
    (∀ (c : Conv) (a : Nat), (t.slot c).table.read a = (s.slot c).table.read a)

/-- A slot changes only by a build of its own convention or by a reset, and no command clears a valid bit (R22, R23). -/
def Obligations.SlotsChangeOnlyByTheirBuildOrReset : Prop :=
  ∀ (s t : State) (c : Conv), step s = .next t →
    (t.slot c ≠ s.slot c →
      (∃ rest, s.inbox = .reset :: rest) ∨ (∃ w m n rest, s.inbox = .resetDuring w m n :: rest) ∨
      (∃ w m rest i, s.inbox = .command w m :: rest ∧ decodeWord w = .ok i ∧ slotWrittenBy i = some c)) ∧
    (∀ w m rest, s.inbox = .command w m :: rest → (s.slot c).valid = true → (t.slot c).valid = true)

/-- No transient state outlives its command (R17, R27): after a step that takes a command, no command is running and no message
is held; the parameter is unchanged and the command has left the channel. -/
def Obligations.NoTransientStateOutlivesACommand : Prop :=
  ∀ (s t : State) (w : Cmd) (m : List Byte) (rest : List HostEvent), s.inbox = .command w m :: rest →
    step s = .next t → t.running = none ∧ t.msg = [] ∧ t.inbox = rest ∧ t.cfg = s.cfg

/-- MSG_LEN_MAX is fixed for the machine (R8): no step changes it. -/
def Obligations.StepsNeverChangeTheParameter : Prop := ∀ s t : State, step s = .next t → t.cfg = s.cfg

/-- A command sees the message it was issued with and nothing that waits behind it (R31, R41). -/
def Obligations.CommandsSeeOnlyTheirOwnMessage : Prop :=
  ∀ (s t : State) (w : Cmd) (m : List Byte) (rest later : List HostEvent),
    step { s with inbox := .command w m :: rest } = .next t →
    step { s with inbox := .command w m :: later } = .next { t with inbox := later }

/-- Determinism as dependence (R105): the response and the next slots are a function of the slots before, the command word and
the message, for any word; and of the slots, a command's result depends only on VALID and TABLE of its own convention, and
only for a table command. (The parameter MSG_LEN_MAX is the same throughout.) -/
def Obligations.ResponsesDependOnlyOnTheirInputs : Prop :=
  (∀ (s t s' : State) (w : Cmd) (m : List Byte) (a b : List HostEvent), s.cfg = t.cfg → s.slotN = t.slotN →
    s.slotR = t.slotR → s.inbox = .command w m :: a → t.inbox = .command w m :: b → step s = .next s' →
    ∃ (t' : State) (r : Response), step t = .next t' ∧ s'.outbox = s.outbox ++ [r] ∧ t'.outbox = t.outbox ++ [r] ∧
      s'.slotN = t'.slotN ∧ s'.slotR = t'.slotR) ∧
  (∀ (i : Instr) (s t s' : State), s.cfg = t.cfg → s.msg = t.msg →
    (∀ c, slotReadBy i = some c → (s.slot c).valid = (t.slot c).valid ∧ (s.slot c).table = (t.slot c).table) →
    exec i s = .next s' →
    ∃ (t' : State) (r : Response), exec i t = .next t' ∧ s'.outbox = s.outbox ++ [r] ∧ t'.outbox = t.outbox ++ [r] ∧
      (∀ c, slotWrittenBy i = some c → s'.slot c = t'.slot c) ∧
      (∀ c, slotWrittenBy i ≠ some c → s'.slot c = s.slot c ∧ t'.slot c = t.slot c))

/-- CRC commands commute (R42): two of them issued in either order return the same values and leave the same state; a build and
a table command of its convention do not commute: after reset the table command answers OK behind the build and NO_TABLE
before it. -/
def Obligations.CrcCommandsCommute : Prop :=
  (∀ (s : State) (v w : Cmd) (a b : List Byte) (i j : Instr) (rest : List HostEvent), Invariant s →
    decodeWord v = .ok i → decodeWord w = .ok j → isCrcCommand i = true → isCrcCommand j = true →
    ∃ (t u : State) (q r : Response),
      Sys2Proof.core.run 2 { s with inbox := .command v a :: .command w b :: rest } = .next t ∧
      Sys2Proof.core.run 2 { s with inbox := .command w b :: .command v a :: rest } = .next u ∧
      t.outbox = s.outbox ++ [q, r] ∧ u.outbox = s.outbox ++ [r, q] ∧ t = { u with outbox := t.outbox }) ∧
  (∀ (p : Byte) (m : List Byte) (build look : Instr),
    (build = .buildTableNormal p ∧ look = .crcTableNormal ∨ build = .buildTableReflected p ∧ look = .crcTableReflected) →
    ∃ (t u : State) (b : Byte),
      Sys2Proof.core.run 2
        { State.reset with inbox := [.command (encode build) [], .command (encode look) m] } = .next t ∧
      Sys2Proof.core.run 2
        { State.reset with inbox := [.command (encode look) m, .command (encode build) []] } = .next u ∧
      t.outbox[1]? = some ⟨.ok, .crc b⟩ ∧ u.outbox[0]? = some ⟨.noTable, .none⟩)

/-- A lookup uses the last build (R114): after a build of its convention, and any commands that are no build of that
convention, a table command within the bound answers the CRC under that build's polynomial; before and after it the slot is
valid and holds that polynomial and its table. -/
def Obligations.LookupsUseTheLastBuild : Prop :=
  ∀ (s : State) (p : Byte) (cmds : List (Cmd × List Byte)) (m : List Byte) (b : Conv)
    (build look : Instr), Invariant s →
    (b = .normal ∧ build = .buildTableNormal p ∧ look = .crcTableNormal ∨
      b = .reflected ∧ build = .buildTableReflected p ∧ look = .crcTableReflected) →
    (∀ c ∈ cmds, ∀ i, decodeWord c.1 = .ok i → slotWrittenBy i ≠ some b) →
    LengthAccepted { s with msg := m } →
    ∃ (t u : State),
      Sys2Proof.core.run (1 + cmds.length)
        { s with inbox := .command (encode build) [] :: (cmds.map fun c => HostEvent.command c.1 c.2) ++
          [.command (encode look) m] } = .next t ∧
      step t = .next u ∧
      u.outbox = t.outbox ++ [⟨.ok, .crc (match b with | .normal => crcBN m p | .reflected => crcBR m p)⟩] ∧
      (t.slot b).valid = true ∧ (t.slot b).poly = some p ∧ SlotReads t b (builtTable b p) ∧ u.slot b = t.slot b

/-! ### Invariants -/

/-- The invariant holds after reset. -/
def Obligations.ResetStateHoldsTheInvariant : Prop := Invariant State.reset ∧ StoreCanonical State.reset

/-- Every step keeps the invariant: the slot invariant (R25), no transient state between commands (R17), and every response of
its form (R90). -/
def Obligations.EveryStepKeepsTheInvariant : Prop := ∀ s t : State, Invariant s → step s = .next t → Invariant t

/-- The slot invariant in every state reachable from reset (R25), for any parameter, any commands and any resets. -/
def Obligations.SlotInvariantHoldsInEveryReachableState : Prop :=
  ∀ (cfg : Config) (events : List HostEvent) (n : Nat) (t : State),
    Sys2Proof.core.run n { State.reset with cfg := cfg, inbox := events } = .next t →
    (t.slotN.valid = true → ∃ p, t.slotN.poly = some p ∧ SlotReads t .normal (buildN p)) ∧
    (t.slotR.valid = true → ∃ p, t.slotR.poly = some p ∧ SlotReads t .reflected (buildR p))

/-- Every step keeps the table spaces in canonical form (R30), whatever the slots hold. -/
def Obligations.EveryStepKeepsTheStoreCanonical : Prop :=
  ∀ s t : State, StoreCanonical s → step s = .next t → StoreCanonical t

/-- No run from an invariant state ever stops (R93, R119): every command completes and responds, every reset completes, and no
read finds an absent entry. -/
def Obligations.RunsFromInvariantStatesNeverStop : Prop := ∀ s : State, Invariant s → SafeFrom s

/-! ### The assembler -/

/-- The assembler of R58: it refuses a polynomial, a message byte or a word out of range; the listing of a word assembles to
that word with its message (a build's message is not listed, R47); and a line of each form is read as written. The reading of
text is log 15. -/
def Obligations.AssemblerRefusesWideValuesAndAgreesWithTheListing : Prop :=
  (∀ (m : List Nat) (n : Nat), 256 ≤ n →
    assemble (.buildTableNormal n) = none ∧ assemble (.buildTableReflected n) = none ∧
    assemble (.crcBitwiseNormal m n) = none ∧ assemble (.crcBitwiseReflected m n) = none) ∧
  (∀ (m : List Nat) (n : Nat), (∃ b ∈ m, 256 ≤ b) →
    assemble (.crcBitwiseNormal m n) = none ∧ assemble (.crcBitwiseReflected m n) = none ∧
    assemble (.crcTableNormal m) = none ∧ assemble (.crcTableReflected m) = none ∧ assemble (.word n m) = none) ∧
  (∀ (m : List Nat) (n : Nat), 65536 ≤ n → assemble (.word n m) = none) ∧
  (∀ (w : Cmd) (m : List Byte) (i : Instr), decodeWord w = .ok i →
    assemble (listing w m) = some (.command w (if isCrcCommand i then m else []))) ∧
  (∀ (w : Cmd) (m : List Byte), isLegal w = false →
    listing w m = .word w.toNat (m.map BitVec.toNat) ∧ assemble (listing w m) = some (.command w m)) ∧
  parseLine "build_table_normal 0x91".toList = some (.buildTableNormal 0x91) ∧
  parseLine "build_table_reflected 145 ; the source's polynomial".toList = some (.buildTableReflected 0x91) ∧
  parseLine "crc_bitwise_normal [0xFF, 0x00, 0xAB], 0x91".toList = some (.crcBitwiseNormal [0xFF, 0x00, 0xAB] 0x91) ∧
  parseLine "crc_bitwise_reflected [255, 0], 7".toList = some (.crcBitwiseReflected [0xFF, 0x00] 0x07) ∧
  parseLine "crc_table_normal []".toList = some (.crcTableNormal []) ∧
  parseLine "crc_table_reflected [0xAB]".toList = some (.crcTableReflected [0xAB]) ∧
  parseLine ".word 0x0106 [0x01]".toList = some (.word 0x0106 [0x01])

/-! ### The decoder's names -/

/-- The decoder names the class of R55 an illegal word is in, by OPC and POLY, and calls no word truncated. The names are the
model's choice (log 21): R53 answers Illegal alone. -/
def Obligations.DecoderNamesTheClassOfAnIllegalWord : Prop :=
  ∀ w : Cmd,
    (decodeWord w = .error .reservedKind ↔ opcField w = 0x00#8 ∨ opcField w = 0x01#8) ∧
    (decodeWord w = .error .reservedBits ↔ 0x08 ≤ (opcField w).toNat) ∧
    (decodeWord w = .error .tablePoly ↔ (opcField w = 0x06#8 ∨ opcField w = 0x07#8) ∧ polyField w ≠ 0x00#8) ∧
    decodeWord w ≠ .error .truncated
end

