-- ==== Sys2Proof/Laws/Encoding.lean ====
section
/-! SUPPORT. The fields of a packed word, and the decoder as a table over the opcode byte. -/

namespace Sys2Proof

-- One thread elaborates this file: a thread for each theorem would reserve more stack than the check's memory limit.
set_option Elab.async false

/-- Bit `k` of `{hi, lo}`. -/
theorem getLsbD_pack (hi lo : Byte) (k : Nat) :
    (pack hi lo).getLsbD k = if k < 8 then lo.getLsbD k else hi.getLsbD (k - 8) := by
  exact BitVec.getLsbD_append

theorem pack_toNat (hi lo : Byte) : (pack hi lo).toNat = 256 * hi.toNat + lo.toNat := by
  have h : (pack hi lo).toNat = hi.toNat <<< 8 ||| lo.toNat := BitVec.toNat_append hi lo
  rw [h, ← Nat.shiftLeft_add_eq_or_of_lt lo.isLt, Nat.shiftLeft_eq]
  omega

@[simp] theorem polyField_pack (hi lo : Byte) : polyField (pack hi lo) = hi := by
  apply BitVec.eq_of_getLsbD_eq
  intro k hk
  simp [polyField, getLsbD_pack, hk]

@[simp] theorem opcField_pack (hi lo : Byte) : opcField (pack hi lo) = lo := by
  apply BitVec.eq_of_getLsbD_eq
  intro k hk
  simp [opcField, getLsbD_pack, hk]

/-- A word is its POLY field and its opcode byte. -/
@[simp] theorem pack_fields (w : Cmd) : pack (polyField w) (opcField w) = w := by
  apply BitVec.eq_of_getLsbD_eq
  intro k hk
  rw [getLsbD_pack]
  split
  · simp [opcField, *]
  · rw [polyField, BitVec.getLsbD_extractLsb', show 8 + (k - 8) = k by omega]
    simp [show k - 8 < 8 by omega]

/-- The decoder looks at bits 7..0 through the opcode byte. -/
theorem rsvField_pack (hi lo : Byte) : rsvField (pack hi lo) = lo.extractLsb' 3 5 := by
  apply BitVec.eq_of_getLsbD_eq
  intro k hk
  simp [rsvField, getLsbD_pack, show 3 + k < 8 by omega]

/-- The decoder (R53) as a case split over the opcode byte (R54, R55). -/
theorem decodeWord_pack (p o : Byte) :
    decodeWord (pack p o) =
      if o = 0x02#8 then .ok (.buildTableNormal p)
      else if o = 0x03#8 then .ok (.buildTableReflected p)
      else if o = 0x04#8 then .ok (.crcBitwiseNormal p)
      else if o = 0x05#8 then .ok (.crcBitwiseReflected p)
      else if o = 0x06#8 then (if p = 0x00#8 then .ok .crcTableNormal else .error .tablePoly)
      else if o = 0x07#8 then (if p = 0x00#8 then .ok .crcTableReflected else .error .tablePoly)
      else if o = 0x00#8 ∨ o = 0x01#8 then .error .reservedKind
      else .error .reservedBits := by
  have hbit : ∀ k < 8, (pack p o).getLsbD k = o.getLsbD k := fun k hk => by rw [getLsbD_pack, if_pos hk]
  have hsplit : ∀ o : Byte, o = 0x02#8 ∨ o = 0x03#8 ∨ o = 0x04#8 ∨ o = 0x05#8 ∨ o = 0x06#8 ∨ o = 0x07#8 ∨
      o = 0x00#8 ∨ o = 0x01#8 ∨
      (o.extractLsb' 3 5 ≠ 0#5 ∧ o ≠ 0x02#8 ∧ o ≠ 0x03#8 ∧ o ≠ 0x04#8 ∧ o ≠ 0x05#8 ∧ o ≠ 0x06#8 ∧ o ≠ 0x07#8 ∧
        o ≠ 0x00#8 ∧ o ≠ 0x01#8) := by decide +kernel
  simp only [decodeWord, polyField_pack, rsvField_pack, kindField, reflField, hbit 0 (by omega), hbit 1 (by omega),
    hbit 2 (by omega)]
  rcases hsplit o with rfl | rfl | rfl | rfl | rfl | rfl | rfl | rfl | h
  case inr.inr.inr.inr.inl => by_cases h : p = 0x00#8 <;> simp [Conv.ofRefl, h]
  case inr.inr.inr.inr.inr.inl => by_cases h : p = 0x00#8 <;> simp [Conv.ofRefl, h]
  case inr.inr.inr.inr.inr.inr.inr.inr => simp [h]
  all_goals rfl

end Sys2Proof
end

