-- ==== Sys2Proof/Laws/State.lean ====
section
/-! SUPPORT. One lemma per field per update of State, all by rfl, so that no proof unfolds a record update. -/

namespace Sys2Proof.Machine

-- One thread elaborates this file: a thread for each theorem would reserve more stack than the check's memory limit.
set_option Elab.async false

section respond
variable (st : Status) (v : Value) (s : State)
@[simp] theorem respond_cfg : (respond st v s).cfg = s.cfg := rfl
@[simp] theorem respond_slotN : (respond st v s).slotN = s.slotN := rfl
@[simp] theorem respond_slotR : (respond st v s).slotR = s.slotR := rfl
@[simp] theorem respond_msg : (respond st v s).msg = [] := rfl
@[simp] theorem respond_running : (respond st v s).running = none := rfl
@[simp] theorem respond_inbox : (respond st v s).inbox = s.inbox := rfl
@[simp] theorem respond_outbox : (respond st v s).outbox = s.outbox ++ [⟨st, v⟩] := rfl
@[simp] theorem raise_eq : raise st s = respond st .none s := rfl
end respond

section withRunning
variable (s : State) (r : Running)
@[simp] theorem withRunning_cfg : (s.withRunning r).cfg = s.cfg := rfl
@[simp] theorem withRunning_slotN : (s.withRunning r).slotN = s.slotN := rfl
@[simp] theorem withRunning_slotR : (s.withRunning r).slotR = s.slotR := rfl
@[simp] theorem withRunning_msg : (s.withRunning r).msg = s.msg := rfl
@[simp] theorem withRunning_running : (s.withRunning r).running = some r := rfl
@[simp] theorem withRunning_inbox : (s.withRunning r).inbox = s.inbox := rfl
@[simp] theorem withRunning_outbox : (s.withRunning r).outbox = s.outbox := rfl
@[simp] theorem withRunning_withRunning (q : Running) : (s.withRunning q).withRunning r = s.withRunning r := rfl
@[simp] theorem withRunning_slot (c : Conv) : (s.withRunning r).slot c = s.slot c := by cases c <;> rfl
@[simp] theorem respond_withRunning (st : Status) (v : Value) : respond st v (s.withRunning r) = respond st v s := rfl
@[simp] theorem startCrc_eq (c : Conv) (p : Byte) :
    startCrc c p s = s.withRunning (.crc ⟨c.refl, p, 0x00#8, 0, 0⟩) := rfl
@[simp] theorem startBuild_eq (c : Conv) (p : Byte) :
    startBuild c p s = s.withRunning (.build ⟨c.refl, p, 0, 0, 0x00#8, []⟩) := rfl
end withRunning

section setSlot
variable (s : State) (c : Conv) (sl : Slot)
@[simp] theorem setSlot_cfg : (s.setSlot c sl).cfg = s.cfg := by cases c <;> rfl
@[simp] theorem setSlot_msg : (s.setSlot c sl).msg = s.msg := by cases c <;> rfl
@[simp] theorem setSlot_running : (s.setSlot c sl).running = s.running := by cases c <;> rfl
@[simp] theorem setSlot_inbox : (s.setSlot c sl).inbox = s.inbox := by cases c <;> rfl
@[simp] theorem setSlot_outbox : (s.setSlot c sl).outbox = s.outbox := by cases c <;> rfl
@[simp] theorem setSlot_slot : (s.setSlot c sl).slot c = sl := by cases c <;> rfl
@[simp] theorem setSlot_setSlot (tl : Slot) : (s.setSlot c sl).setSlot c tl = s.setSlot c tl := by cases c <;> rfl
theorem setSlot_slot_other (d : Conv) (h : d ≠ c) : (s.setSlot c sl).slot d = s.slot d := by
  cases c <;> cases d <;> first | rfl | exact absurd rfl h
@[simp] theorem slot_normal : s.slot .normal = s.slotN := rfl
@[simp] theorem slot_reflected : s.slot .reflected = s.slotR := rfl
@[simp] theorem install_eq (p : Byte) (t : Memory) : install s c p t = s.setSlot c ⟨true, some p, t⟩ := rfl
end setSlot

section takeReset
variable (s : State)
@[simp] theorem takeReset_cfg : (takeReset s).cfg = s.cfg := rfl
@[simp] theorem takeReset_slotN : (takeReset s).slotN = Slot.empty := rfl
@[simp] theorem takeReset_slotR : (takeReset s).slotR = Slot.empty := rfl
@[simp] theorem takeReset_msg : (takeReset s).msg = [] := rfl
@[simp] theorem takeReset_running : (takeReset s).running = none := rfl
@[simp] theorem takeReset_inbox : (takeReset s).inbox = s.inbox := rfl
@[simp] theorem takeReset_outbox : (takeReset s).outbox = s.outbox := rfl
@[simp] theorem takeReset_withRunning (r : Running) : takeReset (s.withRunning r) = takeReset s := rfl
end takeReset

section issue
variable (m : List Byte) (rest : List HostEvent) (s : State)
@[simp] theorem issue_cfg : (issue m rest s).cfg = s.cfg := rfl
@[simp] theorem issue_slotN : (issue m rest s).slotN = s.slotN := rfl
@[simp] theorem issue_slotR : (issue m rest s).slotR = s.slotR := rfl
@[simp] theorem issue_slot (c : Conv) : (issue m rest s).slot c = s.slot c := by cases c <;> rfl
@[simp] theorem issue_msg : (issue m rest s).msg = m := rfl
@[simp] theorem issue_running : (issue m rest s).running = s.running := rfl
@[simp] theorem issue_inbox : (issue m rest s).inbox = rest := rfl
@[simp] theorem issue_outbox : (issue m rest s).outbox = s.outbox := rfl
end issue

/-- Two states with the same fields are the same state. -/
theorem State.ext_fields {s t : State} (h1 : s.cfg = t.cfg) (h2 : s.slotN = t.slotN) (h3 : s.slotR = t.slotR)
    (h4 : s.msg = t.msg) (h5 : s.running = t.running) (h6 : s.inbox = t.inbox) (h7 : s.outbox = t.outbox) :
    s = t := by
  cases s; cases t; simp_all

@[simp] theorem ofRefl_refl (c : Conv) : Conv.ofRefl c.refl = c := by cases c <;> rfl

end Sys2Proof.Machine
end

