-- ==== Sys2Proof/Laws/Memory.lean ====
section
/-! SUPPORT. The laws of a table space: read after write, canonical form kept by every operation, and the cells of a
whole table. -/

namespace Sys2Proof.Machine

-- One thread elaborates this file: a thread for each theorem would reserve more stack than the check's memory limit.
set_option Elab.async false

@[simp] theorem read_nil (i : Nat) : Memory.read [] i = none := rfl

theorem read_cons (c : Host.Cell) (m : Memory) (i : Nat) :
    Memory.read (c :: m) i = if c.1 = i then some c.2 else Memory.read m i := rfl

@[simp] theorem read_write_same (m : Memory) (i : Nat) (v : Byte) : (m.write i v).read i = some v := by
  induction m with
  | nil => simp [Memory.write, read_cons]
  | cons c m ih =>
    simp only [Memory.write]
    split
    · simp [read_cons]
    · split
      · simp [read_cons]
      · rename_i h1 h2
        simp [read_cons, ih, show ¬ c.1 = i from fun h => h2 h.symm]

theorem read_write_other (m : Memory) {i j : Nat} (v : Byte) (h : j ≠ i) : (m.write i v).read j = m.read j := by
  induction m with
  | nil => simp [Memory.write, read_cons, Ne.symm h]
  | cons c m ih =>
    simp only [Memory.write]
    split
    · simp [read_cons, Ne.symm h]
    · split
      · rename_i h1 h2
        simp [read_cons, Ne.symm h, ← h2]
      · simp [read_cons, ih]

/-- Every cell of a written space is the written one or was there before. -/
theorem mem_write {m : Memory} {i : Nat} {v : Byte} {c : Host.Cell} (h : c ∈ m.write i v) : c = (i, v) ∨ c ∈ m := by
  induction m with
  | nil => simpa [Memory.write] using h
  | cons d m ih =>
    simp only [Memory.write] at h
    split at h
    · simpa using h
    · split at h
      · rcases List.mem_cons.1 h with h | h
        · exact .inl h
        · exact .inr (List.mem_cons_of_mem _ h)
      · rcases List.mem_cons.1 h with h | h
        · exact .inr (by simp [h])
        · rcases ih h with h | h
          · exact .inl h
          · exact .inr (List.mem_cons_of_mem _ h)

/-- A write of an index in 0..255 keeps the canonical form (R30, R37). -/
theorem write_wf {m : Memory} (hm : m.wf) {i : Nat} (hi : i < 256) (v : Byte) : (m.write i v).wf := by
  constructor
  · obtain ⟨hs, -⟩ := hm
    induction m with
    | nil => simp [Memory.write]
    | cons c m ih =>
      rw [List.pairwise_cons] at hs
      simp only [Memory.write]
      split
      · rename_i h1
        refine List.pairwise_cons.2 ⟨?_, List.pairwise_cons.2 hs⟩
        intro d hd
        rcases List.mem_cons.1 hd with rfl | hd
        · exact h1
        · exact lt_trans h1 (hs.1 d hd)
      · split
        · rename_i h1 h2
          exact List.pairwise_cons.2 ⟨fun d hd => h2 ▸ hs.1 d hd, hs.2⟩
        · rename_i h1 h2
          refine List.pairwise_cons.2 ⟨?_, ih hs.2⟩
          intro d hd
          rcases mem_write hd with rfl | hd
          · change c.1 < i
            omega
          · exact hs.1 d hd
  · intro c hc
    rcases mem_write hc with rfl | hc
    · exact hi
    · exact hm.2 c hc

/-- Writing above every index there appends. -/
theorem write_above {m : Memory} {i : Nat} (h : ∀ c ∈ m, c.1 < i) (v : Byte) : m.write i v = m ++ [(i, v)] := by
  induction m with
  | nil => rfl
  | cons c m ih =>
    have hc := h c (by simp)
    simp only [Memory.write, List.cons_append]
    rw [if_neg (by omega), if_neg (by omega), ih fun d hd => h d (List.mem_cons_of_mem _ hd)]

/-- In canonical form an index below every listed one has no value. -/
theorem read_below {m : Memory} {i : Nat} (h : ∀ c ∈ m, i < c.1) : m.read i = none := by
  induction m with
  | nil => rfl
  | cons c m ih =>
    have hc := h c (by simp)
    rw [read_cons, if_neg (by omega), ih fun d hd => h d (List.mem_cons_of_mem _ hd)]

/-- The canonical form is canonical: two spaces in it that read alike are the same data. -/
theorem wf_ext {m n : Memory} (hm : m.wf) (hn : n.wf) (h : ∀ i, m.read i = n.read i) : m = n := by
  obtain ⟨hm, -⟩ := hm
  obtain ⟨hn, -⟩ := hn
  induction m generalizing n with
  | nil =>
    cases n with
    | nil => rfl
    | cons d n => simpa [read_cons] using h d.1
  | cons c m ih =>
    cases n with
    | nil => simpa [read_cons] using h c.1
    | cons d n =>
      rw [List.pairwise_cons] at hm hn
      have hcd : c.1 = d.1 := by
        by_contra hne
        rcases Nat.lt_or_ge c.1 d.1 with hlt | hge
        · have h1 := h c.1
          rw [read_cons, if_pos rfl, read_cons, if_neg (fun e => hne e.symm),
            read_below fun e he => lt_trans hlt (hn.1 e he)] at h1
          simp at h1
        · have hlt : d.1 < c.1 := by omega
          have h1 := h d.1
          rw [read_cons, if_neg hne, read_cons, if_pos rfl,
            read_below fun e he => lt_trans hlt (hm.1 e he)] at h1
          simp at h1
      have hv : c.2 = d.2 := by simpa [read_cons, hcd] using h c.1
      have htail : m = n := by
        refine ih (fun i => ?_) hm.2 hn.2
        by_cases hi : c.1 = i
        · subst hi
          rw [read_below hm.1, read_below fun e he => hcd ▸ hn.1 e he]
        · have h1 := h i
          rwa [read_cons, if_neg hi, read_cons, if_neg (hcd ▸ hi)] at h1
      rw [htail, show c = d from Prod.ext hcd hv]

theorem read_map_range (f : Nat → Byte) (n i : Nat) :
    Memory.read ((List.range n).map fun k => (k, f k)) i = if i < n then some (f i) else none := by
  induction n with
  | zero => simp
  | succ n ih =>
    have happ : ∀ (a b : Memory), Memory.read (a ++ b) i = (Memory.read a i).or (Memory.read b i) := by
      intro a b
      induction a with
      | nil => simp
      | cons c a iha => simp only [List.cons_append, read_cons, iha]; split <;> simp
    rw [List.range_succ, List.map_append, happ, ih]
    by_cases h : i < n
    · simp [h, show i < n + 1 by omega]
    · by_cases h2 : i = n
      · simp [h2, read_cons]
      · simp [h, read_cons, show ¬ i < n + 1 by omega, show ¬ n = i from fun e => h2 e.symm]

theorem read_cellsOf_nat (t : Byte → Byte) (i : Nat) :
    (cellsOf t).read i = if i < 256 then some (t (BitVec.ofNat 8 i)) else none :=
  read_map_range (fun i => t (BitVec.ofNat 8 i)) 256 i

/-- A table space that holds `t` reads as `t` at every index (R22). -/
@[simp] theorem read_cellsOf (t : Byte → Byte) (i : Byte) : (cellsOf t).read i.toNat = some (t i) := by
  rw [read_cellsOf_nat, if_pos i.isLt, BitVec.ofNat_toNat, BitVec.setWidth_eq]

theorem cellsOf_wf (t : Byte → Byte) : (cellsOf t).wf := by
  constructor
  · refine List.pairwise_map.2 (List.pairwise_lt_range.imp ?_)
    intro a b h
    exact h
  · intro c hc
    obtain ⟨i, hi, rfl⟩ := List.mem_map.1 hc
    exact List.mem_range.1 hi

@[simp] theorem cellsOf_entries (t : Byte → Byte) : (cellsOf t).map Prod.snd = entriesOf t := by
  simp [cellsOf, entriesOf, List.map_map, Function.comp_def]

@[simp] theorem entriesOf_length (t : Byte → Byte) : (entriesOf t).length = 256 := by simp [entriesOf]

theorem nil_wf : Memory.wf [] := ⟨List.Pairwise.nil, fun _ h => absurd h List.not_mem_nil⟩

end Sys2Proof.Machine
end

