-- ==== Sys2Proof/Laws/Ops.lean ====
section
/-! SUPPORT. One lemma for each shared operation that says everything it can do, and the loops of the commands. -/

namespace Sys2Proof.Machine

-- One thread elaborates this file: a thread for each theorem would reserve more stack than the check's memory limit.
set_option Elab.async false

/-! ### The read primitives -/

theorem readMessage_of_lt {s : State} {k : Nat} (h : k < s.msg.length) :
    readMessage s k = .ok (s.msg.getD k 0#8) := by
  simp [readMessage, h]

theorem readMessage_of_ge {s : State} {k : Nat} (h : s.msg.length ≤ k) :
    readMessage s k = .error .messageOutOfRange := by
  simp [readMessage, h]

@[simp] theorem readMessage_withRunning (s : State) (r : Running) (k : Nat) :
    readMessage (s.withRunning r) k = readMessage s k := rfl

@[simp] theorem readTable_withRunning (s : State) (r : Running) (c : Conv) (i : Byte) :
    readTable (s.withRunning r) c i = readTable s c i := by simp [readTable]

theorem readTable_of_read {s : State} {c : Conv} {i v : Byte} (h : (s.slot c).table.read i.toNat = some v) :
    readTable s c i = .ok v := by
  simp [readTable, h]

theorem readTable_of_absent {s : State} {c : Conv} {i : Byte} (h : (s.slot c).table.read i.toNat = none) :
    readTable s c i = .error .absentEntry := by
  simp [readTable, h]

/-! ### Micro-operations -/

/-- The transient states `q` and `r` belong to one command: the same kind, latched REFL and latched P (R20). -/
def SameCommand : Running → Running → Prop
  | .crc q, .crc r => q.refl = r.refl ∧ q.poly = r.poly
  | .build q, .build r => q.refl = r.refl ∧ q.poly = r.poly
  | .crc _, .build _ => False
  | .build _, .crc _ => False

theorem SameCommand.rfl' (r : Running) : SameCommand r r := by cases r <;> simp [SameCommand]

theorem SameCommand.trans' {a b c : Running} (h : SameCommand a b) (k : SameCommand b c) : SameCommand a c := by
  cases a <;> cases b <;> cases c <;> simp_all [SameCommand]

/-- All a micro-operation can do: change the transient state of the command that runs (R17, R37). -/
theorem microOp_ok {op : MicroOp} {s t : State} (h : microOp op s = .ok t) :
    ∃ q r, s.running = some q ∧ t = s.withRunning r ∧ SameCommand q r := by
  obtain ⟨r, hr⟩ | hr : (∃ r, s.running = some r) ∨ s.running = none := by
    cases s.running <;> simp
  · refine ⟨r, ?_⟩
    cases r <;> cases op <;> simp only [microOp, hr] at h
    case crc.absorb =>
      split at h <;> cases h
      exact ⟨_, hr, rfl, rfl, rfl⟩
    case crc.divide => cases h; exact ⟨_, hr, rfl, rfl, rfl⟩
    case crc.lookup =>
      split at h <;> cases h
      exact ⟨_, hr, rfl, rfl, rfl⟩
    case crc.lookupByte =>
      split at h
      · split at h <;> cases h
        exact ⟨_, hr, rfl, rfl, rfl⟩
      · cases h
    case build.divide => cases h; exact ⟨_, hr, rfl, rfl, rfl⟩
    case build.loadIndex => cases h; exact ⟨_, hr, rfl, rfl, rfl⟩
    case build.keep => cases h; exact ⟨_, hr, rfl, rfl, rfl⟩
    all_goals cases h
  · simp [microOp, hr] at h

theorem runOps_append (a b : List MicroOp) (s : State) :
    runOps (a ++ b) s = match runOps a s with | .ok t => runOps b t | .error f => .error f := by
  induction a generalizing s with
  | nil => rfl
  | cons op a ih =>
    simp only [List.cons_append, runOps]
    cases microOp op s with
    | ok t => exact ih t
    | error f => rfl

theorem runOps_append_ok {a b : List MicroOp} {s t : State} (h : runOps a s = .ok t) :
    runOps (a ++ b) s = runOps b t := by
  rw [runOps_append, h]

theorem withRunning_self {s : State} {q : Running} (h : s.running = some q) : s = s.withRunning q := by
  cases s; simp_all [State.withRunning]

/-- All a run of micro-operations can do: change the transient state of the command that runs. -/
theorem runOps_ok {ops : List MicroOp} {s t : State} {q : Running} (hq : s.running = some q)
    (h : runOps ops s = .ok t) : ∃ r, t = s.withRunning r ∧ SameCommand q r := by
  induction ops generalizing s q with
  | nil => cases h; exact ⟨q, withRunning_self hq, SameCommand.rfl' q⟩
  | cons op ops ih =>
    simp only [runOps] at h
    split at h
    · rename_i u hu
      obtain ⟨q', r, hq', rfl, hs⟩ := microOp_ok hu
      obtain ⟨r', rfl, hs'⟩ := ih (withRunning_running s r) h
      rw [hq] at hq'
      cases hq'
      exact ⟨r', rfl, hs.trans' hs'⟩
    · cases h

/-! ### Ends of a command -/

/-- All the end of a command can do (R66, R74). -/
theorem complete_next {s t : State} (h : complete s = .next t) :
    (∃ r, s.running = some (.crc r) ∧ t = respond .ok (.crc r.acc) s) ∨
    (∃ r, s.running = some (.build r) ∧
      t = respond .ok (.table (r.built.map Prod.snd)) (s.setSlot (Conv.ofRefl r.refl) ⟨true, some r.poly, r.built⟩)) := by
  unfold complete at h
  split at h
  · cases h; exact .inl ⟨_, by assumption, rfl⟩
  · cases h; exact .inr ⟨_, by assumption, rfl⟩
  · cases h

/-- All a command can do when it answers a next state (R91): raise the status its check found, or run and complete. -/
theorem perform_next {check : Option Status} {start : State → State} {ops : List MicroOp} {s t : State}
    (h : perform check start ops s = .next t) :
    (∃ st, check = some st ∧ t = raise st s) ∨
    (check = none ∧ ∃ u, runOps ops (start s) = .ok u ∧ complete u = .next t) := by
  unfold perform at h
  split at h
  · cases h; exact .inl ⟨_, rfl, rfl⟩
  · split at h
    · exact .inr ⟨rfl, _, by assumption, h⟩
    · cases h

@[simp] theorem perform_some (st : Status) (start : State → State) (ops : List MicroOp) (s : State) :
    perform (some st) start ops s = .next (raise st s) := rfl

theorem perform_none_ok {start : State → State} {ops : List MicroOp} {s u : State}
    (h : runOps ops (start s) = .ok u) : perform none start ops s = complete u := by
  simp [perform, h]

theorem perform_none_error {start : State → State} {ops : List MicroOp} {s : State} {f : Fault}
    (h : runOps ops (start s) = .error f) : perform none start ops s = .fault f := by
  simp [perform, h]

@[simp] theorem complete_crc (s : State) (r : CrcRun) :
    complete (s.withRunning (.crc r)) = .next (respond .ok (.crc r.acc) s) := rfl

@[simp] theorem complete_build (s : State) (r : BuildRun) :
    complete (s.withRunning (.build r)) =
      .next (respond .ok (.table (r.built.map Prod.snd))
        (s.setSlot (Conv.ofRefl r.refl) ⟨true, some r.poly, r.built⟩)) := by
  simp only [complete, withRunning_running, install_eq]
  cases Conv.ofRefl r.refl <;> rfl

/-! ### The checks -/

theorem checkLength_eq (s : State) : checkLength s = if lengthExceeded s then some .lengthError else none := rfl

theorem checkTable_eq (c : Conv) (s : State) :
    checkTable c s = if lengthExceeded s then some .lengthError
      else if (s.slot c).valid then none else some .noTable := by
  unfold checkTable checkLength
  split <;> simp_all

/-! ### One byte division -/

theorem divideByte_eq : divideByte =
    [.divide 0, .divide 1, .divide 2, .divide 3, .divide 4, .divide 5, .divide 6, .divide 7] := rfl

/-- Eight division steps of ACC are one byte division (R61, R63, R74). -/
theorem runOps_divideByte_crc (s : State) (r : CrcRun) :
    runOps divideByte (s.withRunning (.crc r)) =
      .ok (s.withRunning (.crc { r with acc := builtTable (Conv.ofRefl r.refl) r.poly r.acc, j := 7 })) := by
  simp only [divideByte_eq, runOps, microOp, withRunning_running, withRunning_withRunning]
  cases Conv.ofRefl r.refl <;> simp only [divStep, builtTable, buildN, buildR, divN, divR]

/-- Eight division steps of the builder's working byte are one byte division (R61, R63, R66). -/
theorem runOps_divideByte_build (s : State) (r : BuildRun) :
    runOps divideByte (s.withRunning (.build r)) =
      .ok (s.withRunning (.build { r with work := builtTable (Conv.ofRefl r.refl) r.poly r.work, j := 7 })) := by
  simp only [divideByte_eq, runOps, microOp, withRunning_running, withRunning_withRunning]
  cases Conv.ofRefl r.refl <;> simp only [divStep, builtTable, buildN, buildR, divN, divR]

/-! ### The loops -/

/-- The loop of the bitwise commands (R74, R75) over any positions inside the message. -/
theorem runOps_bitwise (s : State) (ks : List Nat) (hk : ∀ k ∈ ks, k < s.msg.length) (r : CrcRun) :
    ∃ k j, runOps (opsBitwise ks) (s.withRunning (.crc r)) =
      .ok (s.withRunning (.crc ⟨r.refl, r.poly, (ks.map fun k => s.msg.getD k 0#8).foldl
        (fun a b => builtTable (Conv.ofRefl r.refl) r.poly (a ^^^ b)) r.acc, k, j⟩)) := by
  induction ks generalizing r with
  | nil => exact ⟨r.k, r.j, rfl⟩
  | cons k ks ih =>
    have h1 : runOps (.absorb k :: divideByte) (s.withRunning (.crc r)) =
        .ok (s.withRunning (.crc ⟨r.refl, r.poly,
          builtTable (Conv.ofRefl r.refl) r.poly (r.acc ^^^ s.msg.getD k 0#8), k, 7⟩)) := by
      simp only [runOps, microOp, withRunning_running, readMessage_withRunning,
        readMessage_of_lt (hk k (by simp)), withRunning_withRunning]
      exact runOps_divideByte_crc s _
    obtain ⟨k', j', h2⟩ := ih (fun i hi => hk i (List.mem_cons_of_mem _ hi))
      ⟨r.refl, r.poly, builtTable (Conv.ofRefl r.refl) r.poly (r.acc ^^^ s.msg.getD k 0#8), k, 7⟩
    refine ⟨k', j', ?_⟩
    rw [opsBitwise, List.flatMap_cons, runOps_append_ok h1]
    exact h2

/-- The loop of R83 over any positions inside the message, on a slot that holds the table `t`. -/
theorem runOps_tableNormal (s : State) (t : Byte → Byte) (ks : List Nat) (hk : ∀ k ∈ ks, k < s.msg.length)
    (r : CrcRun) (ht : ∀ i : Byte, (s.slot (Conv.ofRefl r.refl)).table.read i.toNat = some (t i)) :
    ∃ k j, runOps (opsTableNormal ks) (s.withRunning (.crc r)) =
      .ok (s.withRunning (.crc ⟨r.refl, r.poly, (ks.map fun k => s.msg.getD k 0#8).foldl
        (fun a b => t (a ^^^ b)) r.acc, k, j⟩)) := by
  induction ks generalizing r with
  | nil => exact ⟨r.k, r.j, rfl⟩
  | cons k ks ih =>
    obtain ⟨k', j', h2⟩ := ih (fun i hi => hk i (List.mem_cons_of_mem _ hi))
      ⟨r.refl, r.poly, t (r.acc ^^^ s.msg.getD k 0#8), k, r.j⟩ ht
    refine ⟨k', j', ?_⟩
    simp only [opsTableNormal, List.map_cons, runOps, microOp, withRunning_running, readMessage_withRunning,
      readMessage_of_lt (hk k (by simp)), readTable_withRunning, readTable_of_read (ht _), withRunning_withRunning]
    exact h2

/-- The loop of R84 over any positions inside the message, on a slot that holds the table `t`. -/
theorem runOps_tableReflected (s : State) (t : Byte → Byte) (ks : List Nat) (hk : ∀ k ∈ ks, k < s.msg.length)
    (r : CrcRun) (ht : ∀ i : Byte, (s.slot (Conv.ofRefl r.refl)).table.read i.toNat = some (t i)) :
    ∃ k j, runOps (opsTableReflected ks) (s.withRunning (.crc r)) =
      .ok (s.withRunning (.crc ⟨r.refl, r.poly, (ks.map fun k => s.msg.getD k 0#8).foldl
        (fun a b => t (a ^^^ b)) r.acc, k, j⟩)) := by
  induction ks generalizing r with
  | nil => exact ⟨r.k, r.j, rfl⟩
  | cons k ks ih =>
    obtain ⟨k', j', h2⟩ := ih (fun i hi => hk i (List.mem_cons_of_mem _ hi))
      ⟨r.refl, r.poly, t (r.acc ^^^ s.msg.getD k 0#8), k, r.j⟩ ht
    refine ⟨k', j', ?_⟩
    simp only [opsTableReflected, List.flatMap_cons, List.cons_append, List.nil_append, runOps, microOp,
      withRunning_running, readMessage_withRunning, readMessage_of_lt (hk k (by simp)), readTable_withRunning,
      readTable_of_read (ht _), withRunning_withRunning]
    exact h2

/-- The loop of R66 and R67 over the first `n` indices: T' holds the first `n` entries of the table. -/
theorem runOps_build (s : State) (refl : Bool) (p : Byte) (n : Nat) :
    ∃ i j w, runOps ((List.range n).flatMap fun i => .loadIndex i :: (divideByte ++ [.keep]))
        (s.withRunning (.build ⟨refl, p, 0, 0, 0x00#8, []⟩)) =
      .ok (s.withRunning (.build ⟨refl, p, i, j, w,
        (List.range n).map fun i => (i, builtTable (Conv.ofRefl refl) p (BitVec.ofNat 8 i))⟩)) := by
  induction n with
  | zero => exact ⟨0, 0, _, rfl⟩
  | succ n ih =>
    obtain ⟨i, j, w, h⟩ := ih
    refine ⟨n, 7, builtTable (Conv.ofRefl refl) p (BitVec.ofNat 8 n), ?_⟩
    rw [List.range_succ, List.flatMap_append, runOps_append_ok h, List.flatMap_cons, List.flatMap_nil,
      List.append_nil, List.map_append]
    simp only [runOps, microOp, withRunning_running, withRunning_withRunning]
    rw [runOps_append_ok (runOps_divideByte_build s _)]
    simp only [runOps, microOp, withRunning_running, withRunning_withRunning]
    rw [write_above]
    · rfl
    · intro c hc
      obtain ⟨i, hi, rfl⟩ := List.mem_map.1 hc
      exact List.mem_range.1 hi

/-! ### The positions of a message -/

theorem positions_lt {c : Conv} {n k : Nat} (h : k ∈ positions c n) : k < n := by
  cases c <;> simpa [positions] using h

theorem map_range_getD (m : List Byte) : ((List.range m.length).map fun k => m.getD k 0#8) = m := by
  apply List.ext_getElem
  · simp
  · intro i h1 h2
    simp [List.getD, h2]

theorem map_positions_normal (m : List Byte) : ((positions .normal m.length).map fun k => m.getD k 0#8) = m :=
  map_range_getD m

theorem map_positions_reflected (m : List Byte) :
    ((positions .reflected m.length).map fun k => m.getD k 0#8) = m.reverse := by
  rw [positions, List.map_reverse, map_range_getD]

end Sys2Proof.Machine
end

