-- ==== Sys2Proof/Laws/Commands.lean ====
section
/-! SUPPORT. What each kind of command does as a whole, and the inversion lemmas of exec and step: if one answers a next
state, then one of these cases holds. -/

namespace Sys2Proof.Machine

-- One thread elaborates this file: a thread for each theorem would reserve more stack than the check's memory limit.
set_option Elab.async false

/-! ### The length check -/

theorem lengthExceeded_iff (s : State) : lengthExceeded s = true ↔ LengthTooLong s := by
  unfold lengthExceeded LengthTooLong
  split
  · rename_i h
    simp [h]
  · rename_i n h
    simp [h]

theorem lengthExceeded_eq_false_iff (s : State) : lengthExceeded s = false ↔ LengthAccepted s := by
  unfold lengthExceeded LengthAccepted
  split
  · rename_i h
    simp [h]
  · rename_i n h
    simp [h]

@[simp] theorem lengthExceeded_issue (m : List Byte) (rest : List HostEvent) (s : State) :
    lengthExceeded (issue m rest s) = lengthExceeded { s with msg := m } := rfl

/-! ### Whole commands -/

/-- A whole build (R66, R67), from any state. -/
theorem perform_build (c : Conv) (p : Byte) (s : State) :
    perform none (startBuild c p) opsBuild s =
      .next (respond .ok (.table (entriesOf (builtTable c p)))
        (s.setSlot c ⟨true, some p, cellsOf (builtTable c p)⟩)) := by
  obtain ⟨i, j, w, h⟩ := runOps_build s c.refl p 256
  rw [ofRefl_refl] at h
  rw [perform_none_ok (by rw [startBuild_eq]; exact h), complete_build, ofRefl_refl, ← cellsOf_entries]
  rfl

/-- The CRC of a convention on the bytes of MSG, as the bitwise loop computes it (R72, R73). -/
def bitwiseCrc : Conv → List Byte → Byte → Byte
  | .normal => crcBN
  | .reflected => crcBR

/-- A whole bitwise command (R74, R75), within the length bound. -/
theorem perform_bitwise (c : Conv) (p : Byte) (s : State) (hl : lengthExceeded s = false) :
    perform (checkLength s) (startCrc c p) (opsBitwise (positions c s.msg.length)) s =
      .next (respond .ok (.crc (bitwiseCrc c s.msg p)) s) := by
  obtain ⟨k, j, h⟩ := runOps_bitwise s (positions c s.msg.length) (fun k hk => positions_lt hk) ⟨c.refl, p, 0x00#8, 0, 0⟩
  rw [ofRefl_refl] at h
  rw [checkLength_eq, hl, if_neg (by simp), perform_none_ok (by rw [startCrc_eq]; exact h), complete_crc]
  cases c
  · simp only [map_positions_normal]; rfl
  · simp only [map_positions_reflected]; rfl

/-- A whole normal table command (R83), within the length bound, on a valid slot that holds `t`. -/
theorem perform_tableNormal (s : State) (t : Byte → Byte) (hl : lengthExceeded s = false)
    (hv : s.slotN.valid = true) (ht : SlotReads s .normal t) :
    execCrcTableNormal s = .next (respond .ok (.crc (crcTN s.msg t)) s) := by
  obtain ⟨k, j, h⟩ := runOps_tableNormal s t (positions .normal s.msg.length) (fun k hk => positions_lt hk)
    ⟨Conv.refl .normal, 0x00#8, 0x00#8, 0, 0⟩ ht
  rw [execCrcTableNormal, checkTable_eq, hl, if_neg (by simp), slot_normal, hv, if_pos rfl,
    perform_none_ok (by rw [startCrc_eq]; exact h), complete_crc]
  simp only [map_positions_normal]
  rfl

/-- A whole reflected table command (R84), within the length bound, on a valid slot that holds `t`. -/
theorem perform_tableReflected (s : State) (t : Byte → Byte) (hl : lengthExceeded s = false)
    (hv : s.slotR.valid = true) (ht : SlotReads s .reflected t) :
    execCrcTableReflected s = .next (respond .ok (.crc (crcTR s.msg t)) s) := by
  obtain ⟨k, j, h⟩ := runOps_tableReflected s t (positions .reflected s.msg.length) (fun k hk => positions_lt hk)
    ⟨Conv.refl .reflected, 0x00#8, 0x00#8, 0, 0⟩ ht
  rw [execCrcTableReflected, checkTable_eq, hl, if_neg (by simp), slot_reflected, hv, if_pos rfl,
    perform_none_ok (by rw [startCrc_eq]; exact h), complete_crc]
  simp only [map_positions_reflected]
  rfl

/-! ### exec -/

theorem exec_buildTableNormal (p : Byte) (s : State) :
    exec (.buildTableNormal p) s = perform none (startBuild .normal p) opsBuild s := by rw [exec, execBuildTableNormal]

theorem exec_buildTableReflected (p : Byte) (s : State) :
    exec (.buildTableReflected p) s = perform none (startBuild .reflected p) opsBuild s := by
  rw [exec, execBuildTableReflected]

theorem exec_crcBitwiseNormal (p : Byte) (s : State) :
    exec (.crcBitwiseNormal p) s =
      perform (checkLength s) (startCrc .normal p) (opsBitwise (positions .normal s.msg.length)) s := by
  rw [exec, execCrcBitwiseNormal]

theorem exec_crcBitwiseReflected (p : Byte) (s : State) :
    exec (.crcBitwiseReflected p) s =
      perform (checkLength s) (startCrc .reflected p) (opsBitwise (positions .reflected s.msg.length)) s := by
  rw [exec, execCrcBitwiseReflected]

theorem exec_crcTableNormal (s : State) : exec .crcTableNormal s = execCrcTableNormal s := by rw [exec]

theorem exec_crcTableReflected (s : State) : exec .crcTableReflected s = execCrcTableReflected s := by rw [exec]

/-- The meaning of a command and the parts a reset may interrupt are the same three: check, start, operations. -/
theorem exec_eq_perform (i : Instr) (s : State) :
    exec i s = perform (checkOf i s) (startOf i) (opsOf i s.msg.length) s := by
  cases i <;> rfl

theorem checkOf_ne_ok (i : Instr) (s : State) : checkOf i s ≠ some .ok := by
  cases i <;> simp only [checkOf, checkTable_eq, checkLength_eq] <;> (repeat' split) <;> simp

/-- All a command can do when it answers a next state: raise the status of its check; or, for a CRC command, respond a byte;
or, for a build, install and return the table of its polynomial. -/
theorem exec_next {i : Instr} {s t : State} (h : exec i s = .next t) :
    (∃ st, st ≠ .ok ∧ checkOf i s = some st ∧ t = respond st .none s) ∨
    (checkOf i s = none ∧ isCrcCommand i = true ∧ ∃ b, t = respond .ok (.crc b) s) ∨
    (∃ c p, slotWrittenBy i = some c ∧ isCrcCommand i = false ∧
      t = respond .ok (.table (entriesOf (builtTable c p)))
        (s.setSlot c ⟨true, some p, cellsOf (builtTable c p)⟩)) := by
  have crc : ∀ {c : Conv} {p : Byte} {ops : List MicroOp} {ch : Option Status}, ch ≠ some .ok →
      perform ch (startCrc c p) ops s = .next t →
      (∃ st, st ≠ .ok ∧ ch = some st ∧ t = respond st .none s) ∨
      (ch = none ∧ ∃ b, t = respond .ok (.crc b) s) := by
    intro c p ops ch hne h
    rcases perform_next h with ⟨st, rfl, rfl⟩ | ⟨rfl, u, hu, hc⟩
    · exact .inl ⟨st, fun e => hne (by rw [e]), rfl, rfl⟩
    · rw [startCrc_eq] at hu
      obtain ⟨r, rfl, hs⟩ := runOps_ok (withRunning_running s _) hu
      cases r with
      | build r => exact hs.elim
      | crc r =>
        rw [withRunning_withRunning, complete_crc] at hc
        cases hc
        exact .inr ⟨rfl, _, rfl⟩
  cases i with
  | buildTableNormal p =>
    rw [show exec (.buildTableNormal p) s = _ from perform_build .normal p s] at h
    cases h
    exact .inr (.inr ⟨.normal, p, rfl, rfl, rfl⟩)
  | buildTableReflected p =>
    rw [show exec (.buildTableReflected p) s = _ from perform_build .reflected p s] at h
    cases h
    exact .inr (.inr ⟨.reflected, p, rfl, rfl, rfl⟩)
  | crcBitwiseNormal p =>
    rcases crc (checkOf_ne_ok (.crcBitwiseNormal p) s) h with h | ⟨h1, h2⟩
    · exact .inl h
    · exact .inr (.inl ⟨h1, rfl, h2⟩)
  | crcBitwiseReflected p =>
    rcases crc (checkOf_ne_ok (.crcBitwiseReflected p) s) h with h | ⟨h1, h2⟩
    · exact .inl h
    · exact .inr (.inl ⟨h1, rfl, h2⟩)
  | crcTableNormal =>
    rcases crc (checkOf_ne_ok .crcTableNormal s) h with h | ⟨h1, h2⟩
    · exact .inl h
    · exact .inr (.inl ⟨h1, rfl, h2⟩)
  | crcTableReflected =>
    rcases crc (checkOf_ne_ok .crcTableReflected s) h with h | ⟨h1, h2⟩
    · exact .inl h
    · exact .inr (.inl ⟨h1, rfl, h2⟩)

/-! ### Commands cut short, and the step -/

/-- All a command in progress can have changed: its transient state. -/
theorem inProgress_ok {w : Cmd} {n : Nat} {s t : State} (h : inProgress w n s = .ok t) :
    t = s ∨ ∃ r, t = s.withRunning r := by
  unfold inProgress at h
  split at h
  · rename_i i _
    unfold partWay at h
    split at h
    · cases h; exact .inl rfl
    · obtain ⟨q, hq⟩ : ∃ q, startOf i s = s.withRunning q := by cases i <;> exact ⟨_, rfl⟩
      rw [hq] at h
      obtain ⟨r, rfl, -⟩ := runOps_ok (withRunning_running s q) h
      exact .inr ⟨r, rfl⟩
  · cases h; exact .inl rfl

theorem inProgress_takeReset {w : Cmd} {n : Nat} {s t : State} (h : inProgress w n s = .ok t) :
    takeReset t = takeReset s := by
  rcases inProgress_ok h with rfl | ⟨r, rfl⟩ <;> rfl

/-- All a step can do when it answers a next state: idle; run a decoded command; raise ILLEGAL_COMMAND; reset, whether or not
a command was in progress. -/
theorem step_next {s t : State} (h : step s = .next t) :
    (s.inbox = [] ∧ t = s) ∨
    (∃ w m rest i, s.inbox = .command w m :: rest ∧ decodeWord w = .ok i ∧ exec i (issue m rest s) = .next t) ∨
    (∃ w m rest, s.inbox = .command w m :: rest ∧ isLegal w = false ∧
      t = respond .illegalCommand .none (issue m rest s)) ∨
    (∃ e rest, s.inbox = e :: rest ∧ (∀ w m, e ≠ .command w m) ∧ t = takeReset { s with inbox := rest }) := by
  unfold step at h
  split at h
  · cases h; exact .inl ⟨by assumption, rfl⟩
  · rename_i w m rest he
    unfold runWord at h
    split at h
    · exact .inr (.inl ⟨w, m, rest, _, he, by assumption, h⟩)
    · rename_i hd
      cases h
      exact .inr (.inr (.inl ⟨w, m, rest, he, by simp [isLegal, hd], rfl⟩))
  · rename_i rest he
    cases h
    exact .inr (.inr (.inr ⟨_, rest, he, by simp, rfl⟩))
  · rename_i w m n rest he
    unfold resetDuring at h
    split at h
    · rename_i u hu
      cases h
      refine .inr (.inr (.inr ⟨_, rest, he, by simp, ?_⟩))
      rw [inProgress_takeReset hu]
      rfl
    · cases h

theorem run_succ_of_step (M : Host.Core) {s t : M.State} (h : M.step s = .next t) (n : Nat) :
    M.run (n + 1) s = M.run n t := by
  simp only [Host.Core.run, h]

/-- A run of one more step goes on from where the first step leads. -/
theorem run_succ {s t : State} (h : step s = .next t) (n : Nat) :
    Sys2Proof.core.run (n + 1) s = Sys2Proof.core.run n t :=
  run_succ_of_step Sys2Proof.core h n

@[simp] theorem run_zero (s : State) : Sys2Proof.core.run 0 s = .next s := rfl

theorem step_command {s : State} {w : Cmd} {m : List Byte} {rest : List HostEvent} (h : s.inbox = .command w m :: rest) :
    step s = runWord w (issue m rest s) := by
  simp [step, h]

end Sys2Proof.Machine
end

