-- ==== Sys2Proof/Laws/Congruence.lean ====
section
/-! SUPPORT. What a command depends on (R105): two states with the same parameter, the same message and, for a table
command, the same VALID and TABLE of its convention answer alike. -/

namespace Sys2Proof.Machine

-- One thread elaborates this file: a thread for each theorem would reserve more stack than the check's memory limit.
set_option Elab.async false

/-- The convention a running command latched (R20: REFL). -/
def Running.conv : Running → Conv
  | .crc r => Conv.ofRefl r.refl
  | .build r => Conv.ofRefl r.refl

theorem SameCommand.conv_eq {q r : Running} (h : SameCommand q r) : q.conv = r.conv := by
  cases q <;> cases r <;> simp_all [SameCommand, Running.conv]

theorem withRunning_inj {s : State} {q r : Running} (h : s.withRunning q = s.withRunning r) : q = r := by
  simpa using congrArg State.running h

theorem microOp_congr {op : MicroOp} {s t : State} {q r : Running} (hm : s.msg = t.msg)
    (ht : op.readsTable = true → (s.slot q.conv).table = (t.slot q.conv).table)
    (h : microOp op (s.withRunning q) = .ok (s.withRunning r)) :
    microOp op (t.withRunning q) = .ok (t.withRunning r) := by
  have e1 : ∀ k, readMessage s k = readMessage t k := fun k => by simp [readMessage, hm]
  have fin : ∀ {x : Running}, (Except.ok (s.withRunning x) : Except Fault State) = .ok (s.withRunning r) →
      (Except.ok (t.withRunning x) : Except Fault State) = .ok (t.withRunning r) := by
    intro x e
    rw [withRunning_inj (Except.ok.inj e)]
  cases q with
  | crc q =>
    have e2 : op.readsTable = true →
        ∀ i, readTable s (Conv.ofRefl q.refl) i = readTable t (Conv.ofRefl q.refl) i := fun hop i => by
      have := ht hop
      simp only [Running.conv] at this
      simp [readTable, this]
    cases op <;>
      simp only [microOp, withRunning_running, readMessage_withRunning, readTable_withRunning,
        withRunning_withRunning, ← e1] at h ⊢
    case absorb k =>
      cases hb : readMessage s k with
      | ok b => rw [hb] at h; exact fin h
      | error f => rw [hb] at h; cases h
    case divide => exact fin h
    case lookup =>
      rw [← e2 rfl]
      cases hv : readTable s (Conv.ofRefl q.refl) q.acc with
      | ok v => rw [hv] at h; exact fin h
      | error f => rw [hv] at h; cases h
    case lookupByte k =>
      cases hb : readMessage s k with
      | ok b =>
        simp only [hb, ← e2 rfl] at h ⊢
        cases hv : readTable s (Conv.ofRefl q.refl) (q.acc ^^^ b) with
        | ok v => rw [hv] at h; exact fin h
        | error f => rw [hv] at h; cases h
      | error f => rw [hb] at h; cases h
    all_goals cases h
  | build q =>
    cases op <;> simp only [microOp, withRunning_running, withRunning_withRunning] at h ⊢
    case loadIndex => exact fin h
    case divide => exact fin h
    case keep => exact fin h
    all_goals cases h

theorem runOps_congr {ops : List MicroOp} {s t : State} {q r : Running} (hm : s.msg = t.msg)
    (ht : (∀ op ∈ ops, op.readsTable = false) ∨ (s.slot q.conv).table = (t.slot q.conv).table)
    (h : runOps ops (s.withRunning q) = .ok (s.withRunning r)) :
    runOps ops (t.withRunning q) = .ok (t.withRunning r) := by
  induction ops generalizing q with
  | nil =>
    simp only [runOps, Except.ok.injEq] at h ⊢
    rw [withRunning_inj h]
  | cons op ops ih =>
    simp only [runOps] at h ⊢
    split at h
    · rename_i u hu
      obtain ⟨a, b, ha, rfl, hs⟩ := microOp_ok hu
      rw [withRunning_running] at ha
      cases ha
      rw [withRunning_withRunning] at hu h
      rw [microOp_congr hm ?_ hu]
      · refine ih ?_ h
        rcases ht with ht | ht
        · exact .inl fun o ho => ht o (List.mem_cons_of_mem _ ho)
        · exact .inr (hs.conv_eq ▸ ht)
      · intro hop
        rcases ht with ht | ht
        · rw [ht op List.mem_cons_self] at hop
          cases hop
        · exact ht
    · cases h

/-- Only a table command has an operation that reads the table store (R22: "The bitwise commands read neither slot"). -/
theorem opsOf_reads_no_table {i : Instr} (n : Nat) (hi : slotReadBy i = none) :
    ∀ op ∈ opsOf i n, op.readsTable = false := by
  have hd : ∀ op ∈ divideByte, op.readsTable = false := by decide
  have hb : ∀ op ∈ opsBuild, op.readsTable = false := by
    simp only [opsBuild, List.mem_flatMap]
    rintro op ⟨k, -, hop⟩
    rcases List.mem_cons.1 hop with rfl | hop
    · rfl
    · rcases List.mem_append.1 hop with hop | hop
      · exact hd _ hop
      · rw [List.mem_singleton.1 hop]
        rfl
  have hw : ∀ ks, ∀ op ∈ opsBitwise ks, op.readsTable = false := by
    intro ks
    simp only [opsBitwise, List.mem_flatMap]
    rintro op ⟨k, -, hop⟩
    rcases List.mem_cons.1 hop with rfl | hop
    · rfl
    · exact hd _ hop
  cases i with
  | buildTableNormal p => exact hb
  | buildTableReflected p => exact hb
  | crcBitwiseNormal p => exact hw _
  | crcBitwiseReflected p => exact hw _
  | crcTableNormal => cases hi
  | crcTableReflected => cases hi

theorem checkOf_congr {i : Instr} {s t : State} (hc : s.cfg = t.cfg) (hm : s.msg.length = t.msg.length)
    (ht : ∀ c, slotReadBy i = some c → (s.slot c).valid = (t.slot c).valid) : checkOf i s = checkOf i t := by
  have hl : lengthExceeded s = lengthExceeded t := by simp only [lengthExceeded, hc, hm]
  cases i <;> simp only [checkOf, checkTable_eq, checkLength_eq, hl]
  case crcTableNormal => rw [ht .normal rfl]
  case crcTableReflected => rw [ht .reflected rfl]

/-- A command that answers a next state from `s` answers alike from a state that agrees on what it reads: the same response
with nothing else written, or, for a build, the same response and the same slot installed. -/
theorem exec_congr {i : Instr} {s t s' : State} (hc : s.cfg = t.cfg) (hm : s.msg = t.msg)
    (ht : ∀ c, slotReadBy i = some c → (s.slot c).valid = (t.slot c).valid ∧ (s.slot c).table = (t.slot c).table)
    (h : exec i s = .next s') :
    (∃ st v, (isCrcCommand i = true ∨ st ≠ .ok) ∧ s' = respond st v s ∧ exec i t = .next (respond st v t)) ∨
    (∃ v c sl, slotWrittenBy i = some c ∧ s' = respond .ok v (s.setSlot c sl) ∧
      exec i t = .next (respond .ok v (t.setSlot c sl))) := by
  have hck : checkOf i s = checkOf i t := checkOf_congr hc (by rw [hm]) fun c hcv => (ht c hcv).1
  rcases exec_next h with ⟨st, hne, hk, rfl⟩ | ⟨hk, hi, b, rfl⟩ | ⟨c, p, hw, hi, rfl⟩
  · refine .inl ⟨st, _, .inr hne, rfl, ?_⟩
    rw [exec_eq_perform, ← hck, hk, perform_some, raise_eq]
  · refine .inl ⟨_, _, .inl hi, rfl, ?_⟩
    obtain ⟨q, hq, hq', hcv⟩ : ∃ q, startOf i s = s.withRunning q ∧ startOf i t = t.withRunning q ∧
        ∀ c, slotReadBy i = some c → q.conv = c := by
      cases i <;> exact ⟨_, rfl, rfl, by simp [slotReadBy, Running.conv]⟩
    rw [exec_eq_perform, hk] at h
    rcases perform_next h with ⟨st, h0, -⟩ | ⟨-, u, hu, hcu⟩
    · cases h0
    rw [hq] at hu
    obtain ⟨r, rfl, -⟩ := runOps_ok (withRunning_running s q) hu
    rw [withRunning_withRunning] at hu hcu
    have hu' := runOps_congr (t := t) hm (by
      cases hrd : slotReadBy i with
      | none => exact .inl (opsOf_reads_no_table _ hrd)
      | some c => exact .inr (by rw [hcv c hrd]; exact (ht c hrd).2)) hu
    rw [hm] at hu'
    rw [exec_eq_perform, ← hck, hk, perform_none_ok (by rw [hq']; exact hu')]
    have hout := congrArg (fun o => match o with | Host.Outcome.next s => s.outbox | _ => []) hcu
    cases r with
    | crc r =>
      rw [complete_crc]
      simp only [complete_crc, respond_outbox, List.append_cancel_left_eq, List.cons.injEq, Response.mk.injEq,
        and_true, true_and] at hout
      rw [hout]
    | build r => simp at hout
  · refine .inr ⟨_, c, _, hw, rfl, ?_⟩
    cases i with
    | buildTableNormal q =>
      rw [exec_buildTableNormal, perform_build] at h ⊢
      cases hw
      have hp := congrArg (fun o => match o with | Host.Outcome.next s => s.slotN.poly | _ => none) h
      rw [show q = p by simpa [State.setSlot] using hp]
    | buildTableReflected q =>
      rw [exec_buildTableReflected, perform_build] at h ⊢
      cases hw
      have hp := congrArg (fun o => match o with | Host.Outcome.next s => s.slotR.poly | _ => none) h
      rw [show q = p by simpa [State.setSlot] using hp]
    | crcBitwiseNormal q => cases hi
    | crcBitwiseReflected q => cases hi
    | crcTableNormal => cases hi
    | crcTableReflected => cases hi

end Sys2Proof.Machine
end

