-- ==== Sys2Proof/Laws/PerInstr.lean ====
section
/-! SUPPORT. What is stated of every command as syntax: its word is one its row of the opcode map admits (R54). -/

namespace Sys2Proof.Laws.OpcodeRow

-- One thread elaborates this file: a thread for each theorem would reserve more stack than the check's memory limit.
set_option Elab.async false

/-- The command is well formed, and some row of the opcode map has its mnemonic and admits its word. -/
def Statement (i : Instr) : Prop :=
  i.wellFormed = true ∧ ∃ r ∈ opcodeMap, r.mnemonic = i.mnemonic ∧ r.admits (encode i) = true

/-- The mask of R54 leaves the opcode byte of a packed word. -/
theorem pack_and_mask (p o : Byte) : pack p o &&& 0x00FF#16 = pack 0x00#8 o := by
  apply BitVec.eq_of_getLsbD_eq
  intro k hk
  rw [BitVec.getLsbD_and, getLsbD_pack, getLsbD_pack]
  interval_cases k <;> simp

theorem buildTableNormal (p : Byte) : Statement (.buildTableNormal p) :=
  ⟨rfl, ⟨"build_table_normal", 0x0002#16, 0x00FF#16⟩, by simp [opcodeMap], rfl, by
    rw [OpcodeRow.admits, encode, pack_and_mask]; rfl⟩

theorem buildTableReflected (p : Byte) : Statement (.buildTableReflected p) :=
  ⟨rfl, ⟨"build_table_reflected", 0x0003#16, 0x00FF#16⟩, by simp [opcodeMap], rfl, by
    rw [OpcodeRow.admits, encode, pack_and_mask]; rfl⟩

theorem crcBitwiseNormal (p : Byte) : Statement (.crcBitwiseNormal p) :=
  ⟨rfl, ⟨"crc_bitwise_normal", 0x0004#16, 0x00FF#16⟩, by simp [opcodeMap], rfl, by
    rw [OpcodeRow.admits, encode, pack_and_mask]; rfl⟩

theorem crcBitwiseReflected (p : Byte) : Statement (.crcBitwiseReflected p) :=
  ⟨rfl, ⟨"crc_bitwise_reflected", 0x0005#16, 0x00FF#16⟩, by simp [opcodeMap], rfl, by
    rw [OpcodeRow.admits, encode, pack_and_mask]; rfl⟩

theorem crcTableNormal : Statement .crcTableNormal :=
  ⟨rfl, ⟨"crc_table_normal", 0x0006#16, 0xFFFF#16⟩, by simp [opcodeMap], rfl, by decide⟩

theorem crcTableReflected : Statement .crcTableReflected :=
  ⟨rfl, ⟨"crc_table_reflected", 0x0007#16, 0xFFFF#16⟩, by simp [opcodeMap], rfl, by decide⟩

end Sys2Proof.Laws.OpcodeRow
end

