-- ==== Sys2Proof/Tests/Slice0.lean ====
section
/-! SUPPORT. Small tests, and a witness for the hypotheses of every statement that has hypotheses. Expected values stand in
spec/95_test_vectors.md (V4, V7, ... are its rows) or in the rule that the test names. -/

namespace Sys2Proof.Machine

-- One thread elaborates this file: a thread for each theorem would reserve more stack than the check's memory limit.
set_option Elab.async false

/-! ### Small states -/

/-- Both slots built from the source's polynomial 0x91. -/
def built : State :=
  { State.reset with
    slotN := ⟨true, some 0x91#8, cellsOf (buildN 0x91#8)⟩
    slotR := ⟨true, some 0x91#8, cellsOf (buildR 0x91#8)⟩ }

/-- A command as the only event on the channel. -/
def issued (w : Cmd) (m : List Byte) (s : State) : State := { s with inbox := [.command w m] }

/-- A message held in MSG, with MSG_LEN_MAX = 2. -/
def holding (m : List Byte) (s : State) : State := { s with msg := m, cfg := ⟨some 2⟩ }

/-- The newest response after a step. -/
def lastResponse : Answer → Option Response
  | .next t => t.outbox.getLast?
  | .fault _ => none
  | .refused _ => none

theorem built_slots : SlotInvariant built :=
  ⟨⟨fun _ => ⟨0x91#8, rfl, rfl⟩, fun h => absurd h (by decide)⟩,
    ⟨fun _ => ⟨0x91#8, rfl, rfl⟩, fun h => absurd h (by decide)⟩⟩

theorem built_invariant : Invariant built := ⟨built_slots, rfl, rfl, fun _ h => absurd h List.not_mem_nil⟩

theorem reset_slots : SlotInvariant State.reset :=
  ⟨⟨fun h => absurd h (by decide), fun _ => ⟨rfl, rfl⟩⟩, ⟨fun h => absurd h (by decide), fun _ => ⟨rfl, rfl⟩⟩⟩

theorem reset_invariant : Invariant State.reset := ⟨reset_slots, rfl, rfl, fun _ h => absurd h List.not_mem_nil⟩

theorem built_reads_normal : SlotReads built .normal (buildN 0x91#8) := fun i => read_cellsOf (buildN 0x91#8) i

theorem built_reads_reflected : SlotReads built .reflected (buildR 0x91#8) := fun i => read_cellsOf (buildR 0x91#8) i

/-! ### WellFormed refuses ill-formed lines (R58) -/

theorem test_line_poly_256_refused : (AsmLine.buildTableNormal 256).wellFormed = false := by decide
theorem test_line_poly_256_refused_reflected : (AsmLine.buildTableReflected 256).wellFormed = false := by decide
theorem test_line_bitwise_poly_refused : (AsmLine.crcBitwiseNormal [0] 256).wellFormed = false := by decide
theorem test_line_bitwise_byte_refused : (AsmLine.crcBitwiseReflected [0, 256] 0x91).wellFormed = false := by decide
theorem test_line_table_byte_refused : (AsmLine.crcTableNormal [256]).wellFormed = false := by decide
theorem test_line_table_byte_refused_reflected : (AsmLine.crcTableReflected [300]).wellFormed = false := by decide
theorem test_line_word_refused : (AsmLine.word 65536 []).wellFormed = false := by decide
theorem test_line_boundary_accepted : (AsmLine.crcBitwiseNormal [0, 255] 255).wellFormed = true := by decide
theorem test_text_poly_256_refused : (parseLine "build_table_normal 256".toList).bind assemble = none := by decide +kernel
theorem test_text_one_digit_hex_refused : parseLine "build_table_normal 0x9".toList = none := by decide +kernel

/-! ### Decoding: words written out as POLY, RSV, KIND, REFL (R48, R54) -/

theorem test_decode_build_table_normal :
    decodeWord (0b10010001#8 ++ 0b00000#5 ++ 0b01#2 ++ 0b0#1) = .ok (.buildTableNormal 0x91#8) := by decide
theorem test_decode_build_table_reflected :
    decodeWord (0b11111111#8 ++ 0b00000#5 ++ 0b01#2 ++ 0b1#1) = .ok (.buildTableReflected 0xFF#8) := by decide
theorem test_decode_crc_bitwise_normal :
    decodeWord (0b10010001#8 ++ 0b00000#5 ++ 0b10#2 ++ 0b0#1) = .ok (.crcBitwiseNormal 0x91#8) := by decide
theorem test_decode_crc_bitwise_reflected :
    decodeWord (0b00000111#8 ++ 0b00000#5 ++ 0b10#2 ++ 0b1#1) = .ok (.crcBitwiseReflected 0x07#8) := by decide
theorem test_decode_crc_table_normal :
    decodeWord (0b00000000#8 ++ 0b00000#5 ++ 0b11#2 ++ 0b0#1) = .ok .crcTableNormal := by decide
theorem test_decode_crc_table_reflected :
    decodeWord (0b00000000#8 ++ 0b00000#5 ++ 0b11#2 ++ 0b1#1) = .ok .crcTableReflected := by decide
theorem test_decode_reserved_kind : decodeWord 0x9101#16 = .error .reservedKind := by decide
theorem test_decode_table_poly : decodeWord 0x0106#16 = .error .tablePoly := by decide
theorem test_decode_reserved_bits : decodeWord 0x0008#16 = .error .reservedBits ∧ decodeWord 0x9112#16 = .error .reservedBits ∧
    decodeWord 0x0082#16 = .error .reservedBits := by decide
theorem test_decode_serial_bytes : decodeBytes [0x02#8, 0x91#8, 0xAA#8] = .ok (.buildTableNormal 0x91#8, [0xAA#8]) := by decide
theorem test_decode_truncated : decodeBytes [0x02#8] = .error .truncated := by decide
theorem test_decode_table_word : decodeTableWord 16 0x9102 = some (.buildTableNormal 0x91#8) := by decide

/-! ### One step -/

/-- The first row of R66's example: entries 0x00, 0x01, 0x80 and 0xFF of buildN(0x91), through the whole command. -/
theorem test_build_table_normal :
    (match step (issued 0x9102#16 [0x01#8, 0x02#8, 0x03#8] (holding [] State.reset)) with
      | .next t => [t.slotN.table.read 0, t.slotN.table.read 1, t.slotN.table.read 0x80, t.slotN.table.read 0xFF]
      | _ => []) = [some 0x00#8, some 0x91#8, some 0x25#8, some 0xC6#8] := by decide +kernel

theorem test_build_table_reflected :
    (match step (issued 0x9103#16 [] State.reset) with
      | .next t => [t.slotR.table.read 0, t.slotR.table.read 1, t.slotR.table.read 0x80, t.slotR.table.read 0xFF]
      | _ => []) = [some 0x00#8, some 0x54#8, some 0x91#8, some 0x33#8] := by decide +kernel

/-- V7. -/
theorem test_crc_bitwise_normal :
    lastResponse (step (issued 0x9104#16 [0xFF#8, 0x00#8, 0xAB#8] State.reset)) = some ⟨.ok, .crc 0xFE#8⟩ := by decide +kernel
/-- V8: the order of the bytes counts. -/
theorem test_crc_bitwise_normal_reversed :
    lastResponse (step (issued 0x9104#16 [0xAB#8, 0x00#8, 0xFF#8] State.reset)) = some ⟨.ok, .crc 0x62#8⟩ := by decide +kernel
/-- V7. -/
theorem test_crc_bitwise_reflected :
    lastResponse (step (issued 0x9105#16 [0xFF#8, 0x00#8, 0xAB#8] State.reset)) = some ⟨.ok, .crc 0xDC#8⟩ := by decide +kernel
/-- The status vector with MSG_LEN_MAX = 2. -/
theorem test_crc_bitwise_reflected_too_long :
    lastResponse (step (issued 0x9105#16 [0x01#8, 0x02#8, 0x03#8] (holding [] State.reset))) =
      some ⟨.lengthError, .none⟩ := by decide +kernel
/-- V9. -/
theorem test_crc_table_normal :
    lastResponse (step (issued 0x0006#16 [0x01#8, 0x02#8] (holding [] built))) = some ⟨.ok, .crc 0xF9#8⟩ := by decide +kernel
/-- LENGTH_ERROR comes before NO_TABLE. -/
theorem test_crc_table_normal_too_long :
    lastResponse (step (issued 0x0006#16 [0x01#8, 0x02#8, 0x03#8] (holding [] State.reset))) =
      some ⟨.lengthError, .none⟩ := by decide +kernel
/-- V9. -/
theorem test_crc_table_reflected :
    lastResponse (step (issued 0x0007#16 [0x01#8, 0x02#8] (holding [] built))) = some ⟨.ok, .crc 0xDE#8⟩ := by decide +kernel
/-- The other convention's build does not help, and an empty message does not skip the check. -/
theorem test_crc_table_reflected_no_table :
    lastResponse (step (issued 0x0007#16 [] { built with slotR := Slot.empty })) = some ⟨.noTable, .none⟩ := by decide +kernel
/-- ILLEGAL_COMMAND comes first. -/
theorem test_illegal_word :
    lastResponse (step (issued 0x0106#16 [0x01#8, 0x02#8, 0x03#8] (holding [] State.reset))) =
      some ⟨.illegalCommand, .none⟩ := by decide +kernel
/-- The bit test of stepN is bit 7, that of stepR bit 0 (the single-step vectors of section 2). -/
theorem test_division_steps : stepN 0x80#8 0x91#8 = 0x91#8 ∧ stepN 0x01#8 0x91#8 = 0x02#8 ∧ stepR 0x01#8 0x91#8 = 0x91#8 ∧
    stepR 0x80#8 0x91#8 = 0x40#8 ∧ stepN 0xFF#8 0x91#8 = 0x6F#8 ∧ stepR 0xFF#8 0x91#8 = 0xEE#8 := by decide
/-- R107. -/
theorem test_reset_event : step { built with inbox := [.reset] } = .next State.reset := rfl

/-! ### Witnesses: for each statement with hypotheses, states and operands that meet them -/

theorem witness_length_accepted_at_the_bound : LengthAccepted (holding [0x01#8, 0x02#8] built) := by
  intro n h
  cases h
  decide

theorem witness_length_accepted_unbounded : LengthAccepted { built with msg := List.replicate 9 0xFF#8 } := by
  intro n h
  cases h

theorem witness_length_too_long : LengthTooLong (holding [0x01#8, 0x02#8, 0x03#8] built) := ⟨2, rfl, by decide⟩

/-- DecodeAndEncodeAgree, LegalWordsAreTheOpcodeMap, PolynomialOperandIsTheUpperByte, StepRunsTheDecodedCommand,
AssemblerRefusesWideValuesAndAgreesWithTheListing: words that decode, at both ends of the polynomial's range. -/
theorem witness_words_decode :
    decodeWord 0x0002#16 = .ok (.buildTableNormal 0x00#8) ∧ decodeWord 0xFF02#16 = .ok (.buildTableNormal 0xFF#8) ∧
    decodeWord 0x0003#16 = .ok (.buildTableReflected 0x00#8) ∧ decodeWord 0xFF03#16 = .ok (.buildTableReflected 0xFF#8) ∧
    decodeWord 0x0004#16 = .ok (.crcBitwiseNormal 0x00#8) ∧ decodeWord 0xFF04#16 = .ok (.crcBitwiseNormal 0xFF#8) ∧
    decodeWord 0x0005#16 = .ok (.crcBitwiseReflected 0x00#8) ∧ decodeWord 0xFF05#16 = .ok (.crcBitwiseReflected 0xFF#8) ∧
    isLegal 0x0006#16 = true ∧ isLegal 0x0007#16 = true := by decide

theorem witness_LegalWordsAreTheOpcodeMap :
    ∃ r ∈ opcodeMap, ∃ q ∈ opcodeMap, r.admits 0x0007#16 = true ∧ q.admits 0x0007#16 = true ∧
      decodeWord 0x0007#16 = .ok .crcTableReflected := by decide

theorem witness_illegal_words : isLegal 0x0000#16 = false ∧ isLegal 0xFF01#16 = false ∧ isLegal 0x0008#16 = false ∧
    isLegal 0xFFFF#16 = false ∧ isLegal 0x0106#16 = false ∧ isLegal 0xFF07#16 = false := by decide

theorem witness_IllegalWordsAnswerIllegalCommand :
    (issued 0x0106#16 [0x01#8] built).inbox = .command 0x0106#16 [0x01#8] :: [] ∧ isLegal 0x0106#16 = false := ⟨rfl, by decide⟩

theorem witness_CommandWordTravelsLowByteFirst : bytesOfWord 0x9102#16 = [0x02#8, 0x91#8] := by decide

theorem witness_StepRunsTheDecodedCommand :
    (issued 0x9104#16 [0x01#8] State.reset).inbox = .command 0x9104#16 [0x01#8] :: [] ∧
    decodeWord 0x9104#16 = .ok (.crcBitwiseNormal 0x91#8) ∧ decodeTableWord 16 0x9104 = some (.crcBitwiseNormal 0x91#8) :=
  ⟨rfl, by decide, by decide⟩

theorem witness_IdleCoreKeepsItsState : built.inbox = [] := rfl

theorem witness_ResetLeavesNoTableAndNoCommand : isLegal 0x0002#16 = true ∧ isLegal 0x0007#16 = true := by decide

theorem witness_ResetEventEmptiesTheStore :
    ({ built with inbox := [.reset], cfg := ⟨some 2⟩ } : State).inbox = .reset :: [] ∧
    LengthAccepted { takeReset { built with cfg := ⟨some 2⟩ } with msg := [0x01#8, 0x02#8] } :=
  ⟨rfl, fun _ h => by cases h; decide⟩

/-- A reset before the first micro-operation of a build, in the middle of one, and after the last. -/
theorem witness_ResetDuringACommandLeavesNoTrace : ∀ n ∈ [0, 1000, 2560, 9999],
    Invariant { built with inbox := [.resetDuring 0x0702#16 [] n] } :=
  fun _ _ => ⟨built_slots, rfl, rfl, fun _ h => absurd h List.not_mem_nil⟩

theorem witness_DivisionStepsTestShiftAndXor :
    128 ≤ (0x80#8).toNat ∧ (0x7F#8).toNat < 128 ∧ (0x01#8).toNat % 2 = 1 ∧ (0xFE#8).toNat % 2 = 0 := by decide

theorem witness_BuildIgnoresMessageAndLengthBound :
    (∃ t, exec (.buildTableNormal 0x91#8) built = .next t) ∧ (∃ t, exec (.buildTableReflected 0x91#8) built = .next t) :=
  ⟨⟨_, perform_build .normal 0x91#8 built⟩, ⟨_, perform_build .reflected 0x91#8 built⟩⟩

/-- The two CrcBitwise statements: a message at the bound and one above it. -/
theorem witness_CrcBitwise : LengthAccepted (holding [0x01#8, 0x02#8] State.reset) ∧
    LengthTooLong (holding [0x01#8, 0x02#8, 0x03#8] State.reset) :=
  ⟨fun _ h => by cases h; decide, ⟨2, rfl, by decide⟩⟩

theorem witness_CrcTableNormalRespondsItsCrc :
    (LengthAccepted (holding [0x01#8, 0x02#8] built) ∧ (holding [0x01#8, 0x02#8] built).slotN.valid = true ∧
      SlotReads (holding [0x01#8, 0x02#8] built) .normal (buildN 0x91#8)) ∧
    (LengthAccepted (holding [] State.reset) ∧ (holding [] State.reset).slotN.valid = false) ∧
    LengthTooLong (holding [0x01#8, 0x02#8, 0x03#8] State.reset) :=
  ⟨⟨witness_length_accepted_at_the_bound, rfl, built_reads_normal⟩, ⟨fun _ h => by cases h; decide, rfl⟩, ⟨2, rfl, by decide⟩⟩

theorem witness_CrcTableReflectedRespondsItsCrc :
    (LengthAccepted (holding [0x01#8, 0x02#8] built) ∧ (holding [0x01#8, 0x02#8] built).slotR.valid = true ∧
      SlotReads (holding [0x01#8, 0x02#8] built) .reflected (buildR 0x91#8)) ∧
    (LengthAccepted (holding [] State.reset) ∧ (holding [] State.reset).slotR.valid = false) ∧
    LengthTooLong (holding [0x01#8, 0x02#8, 0x03#8] State.reset) :=
  ⟨⟨witness_length_accepted_at_the_bound, rfl, built_reads_reflected⟩, ⟨fun _ h => by cases h; decide, rfl⟩,
    ⟨2, rfl, by decide⟩⟩

theorem witness_EmptyAndOneByteMessages : built.msg = [] ∧ built.slotN.valid = true ∧ built.slotR.valid = true :=
  ⟨rfl, rfl, rfl⟩

theorem witness_TableAndBitwiseCommandsAgree :
    SlotInvariant built ∧ built.slotN.valid = true ∧ built.slotN.poly = some 0x91#8 ∧ built.slotR.valid = true ∧
    built.slotR.poly = some 0x91#8 ∧ (∃ t, exec (.buildTableNormal 0x07#8) built = .next t) ∧
    (∃ t, exec (.buildTableReflected 0x07#8) built = .next t) :=
  ⟨built_slots, rfl, rfl, rfl, rfl, ⟨_, perform_build .normal 0x07#8 built⟩, ⟨_, perform_build .reflected 0x07#8 built⟩⟩

/-- The second clause of TableAndBitwiseCommandsAgree: a build from any state leaves the slot that `built` has. -/
theorem witness_TableAndBitwiseCommandsAgree_after_a_build :
    ∃ t, exec (.buildTableNormal 0x91#8) State.reset = .next t ∧ (holding [0x01#8] built).slotN = t.slotN :=
  ⟨_, perform_build .normal 0x91#8 State.reset, rfl⟩

theorem witness_TableCommandsDoNotReadPoly :
    (∃ t, exec .crcTableNormal (holding [0x01#8, 0x02#8] built) = .next t) ∧
    (∃ t, exec .crcTableReflected (holding [0x01#8, 0x02#8] built) = .next t) :=
  ⟨⟨_, perform_tableNormal _ (buildN 0x91#8) rfl rfl built_reads_normal⟩,
    ⟨_, perform_tableReflected _ (buildR 0x91#8) rfl rfl built_reads_reflected⟩⟩

theorem witness_FailedCommandsWriteAndReadNothing :
    (exec .crcTableNormal { State.reset with msg := [0x01#8] } = .next { State.reset with outbox := [⟨.noTable, .none⟩] } ∧
      Status.noTable ≠ .ok) ∧
    exec (.crcBitwiseNormal 0x91#8) (holding [0x01#8, 0x02#8, 0x03#8] State.reset) =
      .next { holding [] State.reset with outbox := [⟨.lengthError, .none⟩] } ∧
    isLegal 0x0008#16 = false := ⟨⟨rfl, by decide⟩, rfl, by decide⟩

/-- StatusesFollowTheirCausesInPriority: one witness a clause; the bound is met and passed by one byte. -/
theorem witness_StatusesFollowTheirCausesInPriority :
    SlotInvariant (issued 0x0006#16 [0x01#8, 0x02#8, 0x03#8] (holding [] State.reset)) ∧
    isLegal 0x0106#16 = false ∧
    (decodeWord 0x0006#16 = .ok .crcTableNormal ∧ isCrcCommand .crcTableNormal = true ∧
      LengthTooLong (holding [0x01#8, 0x02#8, 0x03#8] State.reset)) ∧
    (LengthAccepted (holding [] State.reset) ∧ slotReadBy .crcTableNormal = some .normal ∧
      ((holding [] State.reset).slot .normal).valid = false) ∧
    (LengthAccepted (holding [0x01#8, 0x02#8] built) ∧
      ∀ c, slotReadBy .crcTableNormal = some c → ((holding [0x01#8, 0x02#8] built).slot c).valid = true) ∧
    isCrcCommand (.buildTableNormal 0x91#8) = false ∧ State.reset.cfg.msgLenMax = none := by
  refine ⟨reset_slots, by decide, ⟨by decide, rfl, ⟨2, rfl, by decide⟩⟩, ⟨fun _ h => by cases h; decide, rfl, rfl⟩,
    ⟨witness_length_accepted_at_the_bound, fun c h => ?_⟩, rfl, rfl⟩
  cases h
  rfl

/-- EveryCommandSendsOneResponseOfItsForm, CrcCommandsLeaveTheStoreAlone, ResponsesDependOnlyOnTheirInputs: a CRC command and a
build that complete, and a command that does not. -/
theorem witness_commands_answer :
    (isCrcCommand (.crcBitwiseNormal 0x91#8) = true ∧
      ∃ t, exec (.crcBitwiseNormal 0x91#8) (holding [0x01#8, 0x02#8] built) = .next t) ∧
    (∃ t, exec (.buildTableReflected 0xFF#8) built = .next t) ∧ (∃ t, exec .crcTableReflected State.reset = .next t) :=
  ⟨⟨rfl, ⟨_, perform_bitwise .normal 0x91#8 (holding [0x01#8, 0x02#8] built) rfl⟩⟩, ⟨_, perform_build .reflected 0xFF#8 built⟩, ⟨_, rfl⟩⟩

/-- ResponsesDependOnlyOnTheirInputs, first clause: two states with the same slots and another channel. -/
theorem witness_ResponsesDependOnlyOnTheirInputs_step :
    (issued 0x0006#16 [0x01#8] built).slotN =
      ({ built with inbox := [.command 0x0006#16 [0x01#8], .reset], outbox := [⟨.noTable, .none⟩] } : State).slotN ∧
    (issued 0x0006#16 [0x01#8] built).inbox = .command 0x0006#16 [0x01#8] :: [] ∧
    ∃ t, step (issued 0x0006#16 [0x01#8] built) = .next t :=
  ⟨rfl, rfl, ⟨_, perform_tableNormal (issue [0x01#8] [] (issued 0x0006#16 [0x01#8] built)) (buildN 0x91#8) rfl rfl
    built_reads_normal⟩⟩

/-- The hypothesis of ResponsesDependOnlyOnTheirInputs on two states that differ: in the slot not read. -/
theorem witness_ResponsesDependOnlyOnTheirInputs : ∀ c, slotReadBy .crcTableNormal = some c →
    (built.slot c).valid = (({ built with slotR := Slot.empty } : State).slot c).valid ∧
      (built.slot c).table = (({ built with slotR := Slot.empty } : State).slot c).table := by
  intro c h
  cases h
  exact ⟨rfl, rfl⟩

theorem witness_ResponsesLeaveInCommandOrder :
    Invariant { built with inbox := [.command 0x0006#16 [0x01#8], .command 0x9103#16 [], .reset] } ∧
    [HostEvent.command 0x0006#16 [0x01#8], .command 0x9103#16 [], .reset] =
      [((0x0006#16 : Cmd), [0x01#8]), (0x9103#16, [])].map (fun c => HostEvent.command c.1 c.2) ++ [.reset] :=
  ⟨⟨built_slots, rfl, rfl, fun _ h => absurd h List.not_mem_nil⟩, rfl⟩

theorem witness_MessageReadsStayInsideTheMessage :
    1 < (holding [0x01#8, 0x02#8] built).msg.length ∧ (holding [0x01#8, 0x02#8] built).msg.length ≤ 2 ∧
    MicroOp.absorb 1 ∈ opsOf (.crcBitwiseNormal 0x91#8) 2 ∧ MicroOp.lookupByte 1 ∈ opsOf .crcTableNormal 2 ∧
    MicroOp.absorb 0 ∈ opsOf .crcTableReflected 1 := by decide

theorem witness_TableReadAfterWrite :
    ((Conv.reflected, 0x05#8) : Conv × Byte) ≠ (.normal, 0x05#8) ∧
    ((Conv.normal, 0xFF#8) : Conv × Byte) ≠ (.normal, 0x00#8) ∧ Conv.reflected ≠ .normal ∧
    (built.slot .normal).table.wf :=
  ⟨by decide, by decide, by decide, cellsOf_wf _⟩

theorem witness_AtomicUpdateIsThe256Writes :
    (built.slot .normal).table.wf ∧ (State.reset.slot .reflected).table.wf := ⟨cellsOf_wf _, nil_wf⟩

/-- A slot that is marked valid and lacks the entry: a state no run reaches. -/
theorem witness_ReadOfAnAbsentEntryFaults :
    (State.reset.slot .normal).table.read (0xFF#8).toNat = none ∧
    LengthAccepted { State.reset with slotN := ⟨true, none, []⟩, slotR := ⟨true, none, []⟩, msg := [0xAB#8] } ∧
    ([0xAB#8] : List Byte) = 0xAB#8 :: [] ∧ ([0xAB#8] : List Byte) = [] ++ [0xAB#8] ∧
    Memory.read [] (0xAB#8).toNat = none :=
  ⟨rfl, (fun _ h => by cases h), rfl, rfl, rfl⟩

/-- TransientStateStaysInRange, a witness for each clause: an illegal word, a check that fails, a CRC command whose message is
at the bound, a build. -/
theorem witness_TransientStateStaysInRange :
    (inProgress 0x0106#16 3 built = .ok built ∧ isLegal 0x0106#16 = false) ∧
    (inProgress 0x0006#16 1 State.reset = .ok State.reset ∧ decodeWord 0x0006#16 = .ok .crcTableNormal ∧
      checkOf .crcTableNormal State.reset = some .noTable) ∧
    ((∃ t, inProgress 0x9104#16 18 (holding [0x01#8, 0x02#8] State.reset) = .ok t) ∧
      decodeWord 0x9104#16 = .ok (.crcBitwiseNormal 0x91#8) ∧
      checkOf (.crcBitwiseNormal 0x91#8) (holding [0x01#8, 0x02#8] State.reset) = none ∧
      isCrcCommand (.crcBitwiseNormal 0x91#8) = true) ∧
    ((∃ t, inProgress 0xFF03#16 11 State.reset = .ok t) ∧ decodeWord 0xFF03#16 = .ok (.buildTableReflected 0xFF#8) ∧
      checkOf (.buildTableReflected 0xFF#8) State.reset = none ∧ isCrcCommand (.buildTableReflected 0xFF#8) = false) :=
  ⟨⟨rfl, by decide⟩, ⟨rfl, by decide, rfl⟩, ⟨⟨_, rfl⟩, by decide, rfl, rfl⟩, ⟨⟨_, rfl⟩, by decide, rfl, rfl⟩⟩

/-- RunningCommandsChangeOnlyTransientState: before the first micro-operation, in the second byte, in a build, and a command
whose check fails. -/
theorem witness_inProgress :
    (∃ t, inProgress 0x9104#16 0 (holding [0x01#8, 0x02#8] State.reset) = .ok t ∧ t.running ≠ none) ∧
    (∃ t, inProgress 0x9104#16 12 (holding [0x01#8, 0x02#8] State.reset) = .ok t ∧ t.running ≠ none) ∧
    (∃ t, inProgress 0x9102#16 15 State.reset = .ok t ∧ t.running ≠ none) ∧
    inProgress 0x0006#16 1 State.reset = .ok State.reset :=
  ⟨⟨_, rfl, by decide⟩, ⟨_, rfl, by decide⟩, ⟨_, rfl, by decide⟩, rfl⟩

/-- Boundary values of the number of bytes consumed: none, and all of a message at the bound. -/
theorem witness_AccumulatorIsTheCrcOfTheBytesConsumed :
    (0 ≤ (holding [0x01#8, 0x02#8] built).msg.length ∧ 2 ≤ (holding [0x01#8, 0x02#8] built).msg.length ∧
      LengthAccepted (holding [0x01#8, 0x02#8] built)) ∧
    (decodeWord 0x9104#16 = .ok (.crcBitwiseNormal 0x91#8) ∧ decodeWord 0x9105#16 = .ok (.crcBitwiseReflected 0x91#8)) ∧
    (decodeWord 0x0006#16 = .ok .crcTableNormal ∧ built.slotN.valid = true ∧ SlotReads built .normal (buildN 0x91#8)) ∧
    (decodeWord 0x0007#16 = .ok .crcTableReflected ∧ built.slotR.valid = true ∧ SlotReads built .reflected (buildR 0x91#8)) :=
  ⟨⟨by decide, by decide, witness_length_accepted_at_the_bound⟩, ⟨by decide, by decide⟩,
    ⟨by decide, rfl, built_reads_normal⟩, ⟨by decide, rfl, built_reads_reflected⟩⟩

/-- A step that changes a slot by a reset, one that does it by a reset in a build, and one that does it by a build; and the
second clause. -/
theorem witness_SlotsChangeOnlyByTheirBuildOrReset :
    (∃ t, step { built with inbox := [.reset] } = .next t ∧ t.slot .normal ≠ built.slot .normal) ∧
    (∃ t, step { built with inbox := [.resetDuring 0x0702#16 [] 0] } = .next t ∧ t.slot .reflected ≠ built.slot .reflected) ∧
    (∃ t, step (issued 0x9102#16 [] State.reset) = .next t ∧ t.slot .normal ≠ State.reset.slot .normal) ∧
    ((issued 0x0007#16 [] built).inbox = .command 0x0007#16 [] :: [] ∧ (built.slot .reflected).valid = true) := by
  refine ⟨⟨_, rfl, fun h => ?_⟩, ⟨_, rfl, fun h => ?_⟩,
    ⟨_, perform_build .normal 0x91#8 (issue [] [] (issued 0x9102#16 [] State.reset)), fun h => ?_⟩, rfl, rfl⟩ <;>
  exact absurd (congrArg Slot.valid h) (by decide)

/-- NoTransientStateOutlivesACommand, StepsNeverChangeTheParameter: a step that takes a command. -/
theorem witness_step_takes_a_command :
    (issued 0x9102#16 [0x01#8] built).inbox = .command 0x9102#16 [0x01#8] :: [] ∧
    ∃ t, step (issued 0x9102#16 [0x01#8] built) = .next t :=
  ⟨rfl, ⟨_, perform_build .normal 0x91#8 (issue [0x01#8] [] (issued 0x9102#16 [0x01#8] built))⟩⟩

theorem witness_CommandsSeeOnlyTheirOwnMessage :
    ∃ t, step { built with inbox := .command 0x9104#16 [0x01#8] :: [.reset] } = .next t := ⟨_, rfl⟩

/-- Two different CRC commands, one of which fails. -/
theorem witness_CrcCommandsCommute :
    Invariant built ∧ decodeWord 0x9104#16 = .ok (.crcBitwiseNormal 0x91#8) ∧
    decodeWord 0x0007#16 = .ok .crcTableReflected ∧ isCrcCommand (.crcBitwiseNormal 0x91#8) = true ∧
    isCrcCommand .crcTableReflected = true :=
  ⟨built_invariant, by decide, by decide, rfl, rfl⟩

/-- After a normal build: a build of the other convention and an illegal word, then a message at the bound. -/
theorem witness_LookupsUseTheLastBuild :
    Invariant { built with cfg := ⟨some 2⟩ } ∧
    (∀ c ∈ [((0xFF03#16 : Cmd), ([] : List Byte)), (0xFFFF#16, [])], ∀ i, decodeWord c.1 = .ok i →
      slotWrittenBy i ≠ some .normal) ∧
    LengthAccepted { ({ built with cfg := ⟨some 2⟩ } : State) with msg := [0x01#8, 0x02#8] } := by
  refine ⟨⟨built_slots, rfl, rfl, fun _ h => absurd h List.not_mem_nil⟩, ?_, fun _ h => by cases h; decide⟩
  intro c hc i hi
  simp only [List.mem_cons, List.not_mem_nil, or_false] at hc
  rcases hc with rfl | rfl
  · rw [show decodeWord 0xFF03#16 = .ok (.buildTableReflected 0xFF#8) by decide] at hi
    cases hi
    decide
  · rw [show decodeWord 0xFFFF#16 = .error .reservedBits by decide] at hi
    cases hi

/-- EveryStepKeepsTheInvariant, EveryStepKeepsTheStoreCanonical, RunsFromInvariantStatesNeverStop: a state with a build
waiting. -/
theorem witness_invariants :
    Invariant (issued 0x0702#16 [] built) ∧ StoreCanonical (issued 0x0702#16 [] built) ∧
    ∃ t, step (issued 0x0702#16 [] built) = .next t :=
  ⟨⟨built_slots, rfl, rfl, fun _ h => absurd h List.not_mem_nil⟩, ⟨cellsOf_wf _, cellsOf_wf _⟩,
    ⟨_, perform_build .normal 0x07#8 (issue [] [] (issued 0x0702#16 [] built))⟩⟩

/-- The word of `build_table_normal 0xFF` makes slot N valid in one step. -/
theorem step_build_makes_valid {s : State} (h : s.inbox = [.command 0xFF02#16 []]) :
    ∃ t, step s = .next t ∧ t.slotN.valid = true := by
  have e : step s = exec (.buildTableNormal 0xFF#8) (issue [] [] s) := by
    rw [step_command h, runWord, show decodeWord 0xFF02#16 = .ok (.buildTableNormal 0xFF#8) by decide]
  rw [e, exec_buildTableNormal, perform_build]
  exact ⟨_, rfl, rfl⟩

/-- A state reachable from reset in which slot N is valid, with MSG_LEN_MAX = 0. -/
theorem witness_SlotInvariantHoldsInEveryReachableState :
    ∃ t, Sys2Proof.core.run 1 { State.reset with cfg := ⟨some 0⟩, inbox := [.command 0xFF02#16 []] } = .next t ∧
      t.slotN.valid = true := by
  obtain ⟨t, h, hv⟩ := step_build_makes_valid
    (s := { State.reset with cfg := ⟨some 0⟩, inbox := [.command 0xFF02#16 []] }) rfl
  exact ⟨t, (run_succ h 0).trans (run_zero t), hv⟩

theorem witness_AssemblerRefusesWideValuesAndAgreesWithTheListing :
    256 ≤ 256 ∧ (∃ b ∈ [0, 256], 256 ≤ b) ∧ 65536 ≤ 65536 ∧ decodeWord 0x0007#16 = .ok .crcTableReflected ∧
    isLegal 0xFFFF#16 = false := by decide

/-- DecoderNamesTheClassOfAnIllegalWord: a word of each class, at a boundary of its range. -/
theorem witness_DecoderNamesTheClassOfAnIllegalWord :
    decodeWord 0xFF01#16 = .error .reservedKind ∧ decodeWord 0x0008#16 = .error .reservedBits ∧
    decodeWord 0x0107#16 = .error .tablePoly := by decide

end Sys2Proof.Machine
end

section
/-! The parameter MSG_LEN_MAX (R8) along a command and along a step. -/

namespace Sys2Proof.Machine

/-- Whether a command raises a status, responds a byte or installs a table, the parameter stays (R8). -/
theorem exec_keeps_cfg {i : Instr} {s t : State} (h : exec i s = .next t) : t.cfg = s.cfg := by
  rcases exec_next h with ⟨st, -, -, rfl⟩ | ⟨-, -, b, rfl⟩ | ⟨c, p, -, -, rfl⟩
  · exact respond_cfg st .none s
  · exact respond_cfg .ok (.crc b) s
  · rw [respond_cfg, setSlot_cfg]

/-- The parameter is fixed for the machine (R8); a reset, too, leaves it (log 10). -/
theorem step_keeps_cfg {s t : State} (h : step s = .next t) : t.cfg = s.cfg := by
  rcases step_next h with ⟨-, rfl⟩ | ⟨w, m, rest, i, -, -, hexec⟩ | ⟨w, m, rest, -, -, rfl⟩ | ⟨e, rest, -, -, rfl⟩
  · rfl
  · rw [exec_keeps_cfg hexec, issue_cfg]
  · rw [respond_cfg, issue_cfg]
  · rw [takeReset_cfg]

/-- Settles O45, by the cases of a step: idle, a decoded command, an illegal word, a reset. -/
theorem stepsNeverChangeTheParameter : Obligations.StepsNeverChangeTheParameter :=
  fun _ _ => step_keeps_cfg

end Sys2Proof.Machine
end

section
/-! The slot invariant (R25) under the operations that write a slot, and the invariant along a command, a step and a run. -/

namespace Sys2Proof.Machine

/-! ### Slots -/

@[simp] theorem respond_slot (st : Status) (v : Value) (s : State) (c : Conv) : (respond st v s).slot c = s.slot c := by
  cases c <;> rfl

theorem slotHolds_empty (c : Conv) : SlotHolds c Slot.empty := ⟨nofun, fun _ => ⟨rfl, rfl⟩⟩

theorem slotHolds_built (c : Conv) (p : Byte) : SlotHolds c ⟨true, some p, cellsOf (builtTable c p)⟩ :=
  ⟨fun _ => ⟨p, rfl, rfl⟩, nofun⟩

theorem slotInvariant_iff (s : State) : SlotInvariant s ↔ ∀ c, SlotHolds c (s.slot c) :=
  ⟨fun ⟨hN, hR⟩ c => by cases c <;> assumption, fun h => ⟨h .normal, h .reflected⟩⟩

/-- What the slot invariant says of the reads of a valid slot (R25). -/
theorem SlotHolds.reads {s : State} {c : Conv} (h : SlotHolds c (s.slot c)) (hv : (s.slot c).valid = true) :
    ∃ p, (s.slot c).poly = some p ∧ SlotReads s c (builtTable c p) := by
  obtain ⟨hvalid, -⟩ := h
  obtain ⟨p, hp, ht⟩ := hvalid hv
  exact ⟨p, hp, fun i => by rw [ht, read_cellsOf]⟩

theorem setSlot_keeps_slotInvariant {s : State} {c : Conv} {sl : Slot} (h : SlotInvariant s) (hsl : SlotHolds c sl) :
    SlotInvariant (s.setSlot c sl) := by
  rw [slotInvariant_iff] at h ⊢
  intro d
  by_cases hd : d = c
  · rw [hd, setSlot_slot]
    exact hsl
  · rw [setSlot_slot_other s c sl d hd]
    exact h d

theorem takeReset_slotInvariant (s : State) : SlotInvariant (takeReset s) :=
  ⟨slotHolds_empty .normal, slotHolds_empty .reflected⟩

/-! ### The invariant at its sources: a response, a reset -/

theorem respond_invariant {st : Status} {v : Value} {s : State} (hs : SlotInvariant s)
    (hr : ∀ r ∈ s.outbox, r.wellFormed) (hv : Response.wellFormed ⟨st, v⟩) : Invariant (respond st v s) where
  slots := hs
  noCommand := respond_running st v s
  noMessage := respond_msg st v s
  responses r h := by
    rw [respond_outbox, List.mem_append, List.mem_singleton] at h
    rcases h with h | rfl
    · exact hr r h
    · exact hv

theorem takeReset_invariant {s : State} (hr : ∀ r ∈ s.outbox, r.wellFormed) : Invariant (takeReset s) where
  slots := takeReset_slotInvariant s
  noCommand := takeReset_running s
  noMessage := takeReset_msg s
  responses := hr

/-- The state after reset (R28), with any parameter and any events issued. -/
theorem reset_issued_invariant (cfg : Config) (events : List HostEvent) :
    Invariant { State.reset with cfg := cfg, inbox := events } :=
  takeReset_invariant (s := { State.reset with cfg := cfg, inbox := events }) nofun

/-! ### The invariant along a command, a step and a run -/

/-- A command started between two commands, whatever message it holds, ends in a state of the invariant. -/
theorem exec_invariant {i : Instr} {s t : State} (hs : SlotInvariant s) (hr : ∀ r ∈ s.outbox, r.wellFormed)
    (h : exec i s = .next t) : Invariant t := by
  rcases exec_next h with ⟨st, hst, -, rfl⟩ | ⟨-, -, b, rfl⟩ | ⟨c, p, -, -, rfl⟩
  · exact respond_invariant hs hr hst
  · exact respond_invariant hs hr rfl
  · refine respond_invariant (setSlot_keeps_slotInvariant hs (slotHolds_built c p)) ?_ ⟨rfl, entriesOf_length _⟩
    rwa [setSlot_outbox]

theorem step_keeps_invariant {s t : State} (hi : Invariant s) (h : step s = .next t) : Invariant t := by
  obtain ⟨hs, -, -, hr⟩ := id hi
  rcases step_next h with ⟨-, rfl⟩ | ⟨w, m, rest, i, -, -, hexec⟩ | ⟨w, m, rest, -, -, rfl⟩ | ⟨e, rest, -, -, rfl⟩
  · exact hi
  · exact exec_invariant (s := issue m rest s) hs hr hexec
  · exact respond_invariant (s := issue m rest s) hs hr nofun
  · exact takeReset_invariant (s := { s with inbox := rest }) hr

/-- Settles O51, by the cases of a step: idle, a decoded command, an illegal word, a reset. -/
theorem everyStepKeepsTheInvariant : Obligations.EveryStepKeepsTheInvariant :=
  fun _ _ => step_keeps_invariant

/-- Settles O50: a reset leaves both slots empty and nothing in progress. -/
theorem resetStateHoldsTheInvariant : Obligations.ResetStateHoldsTheInvariant :=
  ⟨reset_issued_invariant Config.standard [], nil_wf, nil_wf⟩

/-- A run that reaches a state one step later has a first step that answers. -/
theorem run_succ_next (M : Host.Core) {n : Nat} {s t : M.State} (h : M.run (n + 1) s = .next t) :
    ∃ u, M.step s = .next u ∧ M.run n u = .next t := by
  simp only [Host.Core.run] at h
  split at h
  · exact ⟨_, by assumption, h⟩
  · cases h
  · cases h

/-- What every step keeps, every run keeps. -/
theorem run_keeps {P : State → Prop} (hstep : ∀ {s t}, P s → step s = .next t → P t) {n : Nat} {s t : State}
    (hs : P s) (h : Sys2Proof.core.run n s = .next t) : P t := by
  induction n generalizing s with
  | zero => cases h; exact hs
  | succ n ih =>
    obtain ⟨u, hu, hrun⟩ := run_succ_next Sys2Proof.core h
    exact ih (hstep hs hu) hrun

/-- Settles O52: every run from reset stays in the invariant, and a slot that holds a table reads as it. -/
theorem slotInvariantHoldsInEveryReachableState : Obligations.SlotInvariantHoldsInEveryReachableState := by
  intro cfg events n t h
  have hslots := (slotInvariant_iff t).1 (run_keeps step_keeps_invariant (reset_issued_invariant cfg events) h).slots
  exact ⟨(hslots .normal).reads, (hslots .reflected).reads⟩

end Sys2Proof.Machine
end

section
/-! What a command and a step leave unchanged (R17, R18, R22, R31). -/

namespace Sys2Proof.Machine

/-- A slot after a command is the slot before it, or the one a build of its convention installs (R22). -/
theorem exec_slot {i : Instr} {s t : State} (h : exec i s = .next t) (c : Conv) :
    t.slot c = s.slot c ∨
    (slotWrittenBy i = some c ∧ ∃ p, t.slot c = ⟨true, some p, cellsOf (builtTable c p)⟩) := by
  rcases exec_next h with ⟨st, -, -, rfl⟩ | ⟨-, -, b, rfl⟩ | ⟨d, p, hw, -, rfl⟩
  · exact .inl (respond_slot _ _ s c)
  · exact .inl (respond_slot _ _ s c)
  · rw [respond_slot]
    by_cases hc : c = d
    · subst hc
      exact .inr ⟨hw, p, setSlot_slot _ _ _⟩
    · exact .inl (setSlot_slot_other s d _ c hc)

/-- A CRC command writes no slot (R22: "Written by"). -/
theorem slotWrittenBy_of_isCrcCommand {i : Instr} (h : isCrcCommand i = true) : slotWrittenBy i = none := by
  cases i <;> cases h <;> rfl

/-- A command ends with nothing running and no message, and leaves what waits behind it (R17, R31). -/
theorem exec_ends {i : Instr} {s t : State} (h : exec i s = .next t) :
    t.running = none ∧ t.msg = [] ∧ t.inbox = s.inbox := by
  rcases exec_next h with ⟨st, -, -, rfl⟩ | ⟨-, -, b, rfl⟩ | ⟨c, p, -, -, rfl⟩
  · exact ⟨rfl, rfl, rfl⟩
  · exact ⟨rfl, rfl, rfl⟩
  · exact ⟨rfl, rfl, by rw [respond_inbox, setSlot_inbox]⟩

theorem crcCommand_keeps_slot {i : Instr} {s t : State} (hi : isCrcCommand i = true) (h : exec i s = .next t)
    (c : Conv) : t.slot c = s.slot c := by
  rcases exec_slot h c with hc | ⟨hw, -⟩
  · exact hc
  · rw [slotWrittenBy_of_isCrcCommand hi] at hw
    cases hw

/-- Settles O42: a CRC command writes no slot, and every command keeps the parameter and what waits. -/
theorem crcCommandsLeaveTheStoreAlone : Obligations.CrcCommandsLeaveTheStoreAlone := by
  intro i s t hi h
  have hslot := crcCommand_keeps_slot hi h
  obtain ⟨-, -, hinbox⟩ := exec_ends h
  exact ⟨hslot .normal, hslot .reflected, exec_keeps_cfg h, hinbox, fun c a => by rw [hslot c]⟩

/-- A slot after a step is the slot before it, unless the step took a reset, or a build of that convention, which leaves
the slot valid (R22, R23, R106). -/
theorem step_slot {s t : State} (h : step s = .next t) (c : Conv) :
    t.slot c = s.slot c ∨
    (∃ e rest, s.inbox = e :: rest ∧ ∀ w m, e ≠ .command w m) ∨
    (∃ w m rest i, s.inbox = .command w m :: rest ∧ decodeWord w = .ok i ∧ slotWrittenBy i = some c ∧
      (t.slot c).valid = true) := by
  rcases step_next h with ⟨-, rfl⟩ | ⟨w, m, rest, i, he, hd, hexec⟩ | ⟨w, m, rest, -, -, rfl⟩ | ⟨e, rest, he, hne, -⟩
  · exact .inl rfl
  · rcases exec_slot hexec c with hc | ⟨hw, p, hp⟩
    · exact .inl (by rw [hc, issue_slot])
    · exact .inr (.inr ⟨w, m, rest, i, he, hd, hw, by rw [hp]⟩)
  · exact .inl (by rw [respond_slot, issue_slot])
  · exact .inr (.inl ⟨e, rest, he, hne⟩)

/-- Settles O43, by the cases of `step_slot`. -/
theorem slotsChangeOnlyByTheirBuildOrReset : Obligations.SlotsChangeOnlyByTheirBuildOrReset := by
  intro s t c h
  constructor
  · intro hne
    rcases step_slot h c with hc | ⟨e, rest, he, hcmd⟩ | ⟨w, m, rest, i, he, hd, hw, -⟩
    · exact absurd hc hne
    · cases e with
      | command w m => exact absurd rfl (hcmd w m)
      | reset => exact .inl ⟨rest, he⟩
      | resetDuring w m n => exact .inr (.inl ⟨w, m, n, rest, he⟩)
    · exact .inr (.inr ⟨w, m, rest, i, he, hd, hw⟩)
  · intro w m rest he hv
    rcases step_slot h c with hc | ⟨e, rest', he', hcmd⟩ | ⟨-, -, -, -, -, -, -, hvalid⟩
    · rw [hc]
      exact hv
    · rw [he] at he'
      cases he'
      exact absurd rfl (hcmd w m)
    · exact hvalid

/-- A word that meets the decoder ends with nothing running and no message, and leaves what waits behind it (R17, R31). -/
theorem runWord_ends {w : Cmd} {s t : State} (h : runWord w s = .next t) :
    t.running = none ∧ t.msg = [] ∧ t.inbox = s.inbox := by
  unfold runWord at h
  split at h
  · exact exec_ends h
  · cases h
    exact ⟨rfl, rfl, rfl⟩

/-- Settles O44: the step gives the command's word to the decoder, and no step changes the parameter. -/
theorem noTransientStateOutlivesACommand : Obligations.NoTransientStateOutlivesACommand := by
  intro s t w m rest he h
  have hword : runWord w (issue m rest s) = .next t := by rw [← step_command he, h]
  obtain ⟨hrunning, hmsg, hinbox⟩ := runWord_ends hword
  exact ⟨hrunning, hmsg, hinbox, step_keeps_cfg h⟩

end Sys2Proof.Machine
end

section
/-! From the slot invariant every command answers; after a reset, never with ILLEGAL_COMMAND (R28, R29). -/

namespace Sys2Proof.Machine

theorem lengthExceeded_of_checkLength {s : State} (h : checkLength s = none) : lengthExceeded s = false := by
  simpa [checkLength_eq] using h

/-- A table command that passes its check is within the length bound and finds a valid slot (R83, R84). -/
theorem checkTable_eq_none_iff (c : Conv) (s : State) :
    checkTable c s = none ↔ lengthExceeded s = false ∧ (s.slot c).valid = true := by
  rw [checkTable_eq]
  cases lengthExceeded s <;> simp

/-- The statuses a check raises (R91); ILLEGAL_COMMAND is the decoder's. -/
theorem checkOf_eq_some {i : Instr} {s : State} {st : Status} (h : checkOf i s = some st) :
    st = .lengthError ∨ st = .noTable := by
  cases i <;> simp only [checkOf, checkTable_eq, checkLength_eq] at h <;> (repeat' split at h) <;> cases h <;> simp

/-- A decoded command sends one response, with another status than ILLEGAL_COMMAND (R90, R91). -/
theorem exec_response {i : Instr} {s t : State} (h : exec i s = .next t) :
    ∃ r : Response, t.outbox = s.outbox ++ [r] ∧ r.status ≠ .illegalCommand := by
  rcases exec_next h with ⟨st, -, hst, rfl⟩ | ⟨-, -, b, rfl⟩ | ⟨c, p, -, -, rfl⟩
  · refine ⟨_, respond_outbox _ _ s, ?_⟩
    rcases checkOf_eq_some hst with rfl | rfl <;> exact nofun
  · exact ⟨⟨.ok, .crc b⟩, respond_outbox _ _ s, nofun⟩
  · exact ⟨⟨.ok, .table _⟩, by rw [respond_outbox, setSlot_outbox], nofun⟩

/-- From the slot invariant every command answers a next state (R93): a table command whose check passes finds its
table. -/
theorem exec_answers {s : State} (hs : SlotInvariant s) (i : Instr) : ∃ t, exec i s = .next t := by
  cases hc : checkOf i s with
  | some st => exact ⟨_, by rw [exec_eq_perform, hc, perform_some]⟩
  | none =>
    obtain ⟨hN, hR⟩ := hs
    cases i with
    | buildTableNormal p => exact ⟨_, perform_build .normal p s⟩
    | buildTableReflected p => exact ⟨_, perform_build .reflected p s⟩
    | crcBitwiseNormal p => exact ⟨_, perform_bitwise .normal p s (lengthExceeded_of_checkLength hc)⟩
    | crcBitwiseReflected p => exact ⟨_, perform_bitwise .reflected p s (lengthExceeded_of_checkLength hc)⟩
    | crcTableNormal =>
      obtain ⟨hl, hv⟩ := (checkTable_eq_none_iff .normal s).1 hc
      obtain ⟨p, -, ht⟩ := SlotHolds.reads (c := .normal) hN hv
      exact ⟨_, perform_tableNormal s _ hl hv ht⟩
    | crcTableReflected =>
      obtain ⟨hl, hv⟩ := (checkTable_eq_none_iff .reflected s).1 hc
      obtain ⟨p, -, ht⟩ := SlotHolds.reads (c := .reflected) hR hv
      exact ⟨_, perform_tableReflected s _ hl hv ht⟩

theorem decodeWord_of_isLegal {w : Cmd} (h : isLegal w = true) : ∃ i, decodeWord w = .ok i := by
  unfold isLegal at h
  split at h
  · exact ⟨_, by assumption⟩
  · cases h

/-- A step that takes a legal word runs its command (R40, R53). -/
theorem step_command_of_decodeWord {s : State} {w : Cmd} {m : List Byte} {rest : List HostEvent} {i : Instr}
    (he : s.inbox = .command w m :: rest) (hd : decodeWord w = .ok i) : step s = exec i (issue m rest s) := by
  rw [step_command he, runWord, hd]

/-- Settles O9: the slots of reset are empty, and from the slot invariant every legal command answers. -/
theorem resetLeavesNoTableAndNoCommand : Obligations.ResetLeavesNoTableAndNoCommand := by
  refine ⟨rfl, rfl, rfl, rfl, fun i => ⟨read_nil _, read_nil _⟩, rfl, rfl, fun w m hw => ?_⟩
  obtain ⟨i, hd⟩ := decodeWord_of_isLegal hw
  obtain ⟨t, ht⟩ := exec_answers (s := issue m [] State.reset) (reset_issued_invariant Config.standard []).slots i
  obtain ⟨r, hout, hr⟩ := exec_response ht
  exact ⟨t, r, (step_command_of_decodeWord rfl hd).trans ht, hout, hr⟩

end Sys2Proof.Machine
end

section
/-! A table command that meets an absent entry stops (R29). -/

namespace Sys2Proof.Machine

theorem runOps_cons_ok {op : MicroOp} {ops : List MicroOp} {s t : State} (h : microOp op s = .ok t) :
    runOps (op :: ops) s = runOps ops t := by
  simp only [runOps, h]

theorem runOps_cons_error {op : MicroOp} {ops : List MicroOp} {s : State} {f : Fault} (h : microOp op s = .error f) :
    runOps (op :: ops) s = .error f := by
  simp only [runOps, h]

/-- `ACC <- ACC ^ MemRead(MSG:k, 1)` (R74, R75, R84), where the read has a value. -/
theorem microOp_absorb {s : State} {r : CrcRun} {k : Nat} {b : Byte} (hb : readMessage s k = .ok b) :
    microOp (.absorb k) (s.withRunning (.crc r)) = .ok (s.withRunning (.crc { r with acc := r.acc ^^^ b, k := k })) := by
  simp only [microOp, withRunning_running, readMessage_withRunning, hb, withRunning_withRunning]

theorem microOp_lookup_absent {s : State} {r : CrcRun} (h : readTable s (Conv.ofRefl r.refl) r.acc = .error .absentEntry) :
    microOp .lookup (s.withRunning (.crc r)) = .error .absentEntry := by
  simp only [microOp, withRunning_running, readTable_withRunning, h]

theorem microOp_lookupByte_absent {s : State} {r : CrcRun} {k : Nat} {b : Byte} (hb : readMessage s k = .ok b)
    (h : readTable s (Conv.ofRefl r.refl) (r.acc ^^^ b) = .error .absentEntry) :
    microOp (.lookupByte k) (s.withRunning (.crc r)) = .error .absentEntry := by
  simp only [microOp, withRunning_running, readMessage_withRunning, readTable_withRunning, hb, h]

/-- A table command whose check passes and whose operations stop, stops (R83, R84). -/
theorem exec_fault {i : Instr} {s : State} {f : Fault} (hc : checkOf i s = none)
    (h : runOps (opsOf i s.msg.length) (startOf i s) = .error f) : exec i s = .fault f := by
  rw [exec_eq_perform, hc, perform_none_error h]

/-- R83 takes the first byte of the message first. -/
theorem opsOf_crcTableNormal_succ (n : Nat) : ∃ ops, opsOf .crcTableNormal (n + 1) = .lookupByte 0 :: ops :=
  ⟨_, by rw [opsOf, positions, List.range_succ_eq_map, opsTableNormal, List.map_cons]⟩

/-- R84 takes the last byte of the message first. -/
theorem opsOf_crcTableReflected_succ (n : Nat) :
    ∃ ops, opsOf .crcTableReflected (n + 1) = .absorb n :: .lookup :: ops :=
  ⟨_, by
    rw [opsOf, positions, List.range_succ, List.reverse_append, opsTableReflected, List.reverse_singleton,
      List.singleton_append, List.flatMap_cons, List.cons_append, List.singleton_append]⟩

/-- Settles O37: the first lookup of either table command falls on the entry of its first byte, since ACC starts at 0x00. -/
theorem readOfAnAbsentEntryFaults : Obligations.ReadOfAnAbsentEntryFaults := by
  refine ⟨fun s c i h => readTable_of_absent h, fun s b m hl hv hm h => ?_, fun s b m hl hv hm h => ?_⟩
  · have hb : readMessage s 0 = .ok b := by simp [readMessage, hm]
    have hlookup : readTable s .normal (0x00#8 ^^^ b) = .error .absentEntry :=
      readTable_of_absent (by rw [BitVec.zero_xor]; exact h)
    obtain ⟨ops, hops⟩ := opsOf_crcTableNormal_succ m.length
    refine exec_fault ((checkTable_eq_none_iff .normal s).2 ⟨(lengthExceeded_eq_false_iff s).2 hl, hv⟩) ?_
    rw [hm, List.length_cons, hops, startOf, startCrc_eq]
    exact runOps_cons_error (microOp_lookupByte_absent hb hlookup)
  · have hb : readMessage s m.length = .ok b := by simp [readMessage, hm]
    have hlookup : readTable s .reflected (0x00#8 ^^^ b) = .error .absentEntry :=
      readTable_of_absent (by rw [BitVec.zero_xor]; exact h)
    obtain ⟨ops, hops⟩ := opsOf_crcTableReflected_succ m.length
    refine exec_fault ((checkTable_eq_none_iff .reflected s).2 ⟨(lengthExceeded_eq_false_iff s).2 hl, hv⟩) ?_
    rw [hm, List.length_append, List.length_singleton, hops, startOf, startCrc_eq, runOps_cons_ok (microOp_absorb hb)]
    exact runOps_cons_error (microOp_lookup_absent hlookup)

end Sys2Proof.Machine
end

section
/-! The transient state of a command cut short (R18, R20): what it is latched from, its ranges, and the accumulator. -/

namespace Sys2Proof.Machine

theorem inProgress_of_illegal {w : Cmd} (hw : isLegal w = false) (n : Nat) (s : State) : inProgress w n s = .ok s := by
  cases hd : decodeWord w with
  | ok i => simp [isLegal, hd] at hw
  | error e => rw [inProgress, hd]

theorem inProgress_of_check {w : Cmd} {i : Instr} {s : State} {st : Status} (hd : decodeWord w = .ok i)
    (hc : checkOf i s = some st) (n : Nat) : inProgress w n s = .ok s := by
  simp only [inProgress, hd, partWay, hc]

/-- A command whose check passes does the first `n` of its micro-operations (R106). -/
theorem inProgress_of_running {w : Cmd} {i : Instr} {s : State} (hd : decodeWord w = .ok i) (hc : checkOf i s = none)
    (n : Nat) : inProgress w n s = runOps ((opsOf i s.msg.length).take n) (startOf i s) := by
  simp only [inProgress, hd, partWay, hc]

/-! ### Ranges -/

/-- The transient state a command word latches: REFL and P from the word, everything else as at the start (R20). -/
def latched (w : Cmd) (i : Instr) : Running :=
  if isCrcCommand i then .crc ⟨reflField w, polyField w, 0x00#8, 0, 0⟩
  else .build ⟨reflField w, polyField w, 0, 0, 0x00#8, []⟩

theorem reflField_eq_opcField (w : Cmd) : reflField w = (opcField w).getLsbD 0 := by simp [reflField, opcField]

/-- A command starts with the transient state its word latches (R20, R49, R50; R48 for the 0x00 of a table command). -/
theorem startOf_eq_latched {w : Cmd} {i : Instr} (hd : decodeWord w = .ok i) (s : State) :
    startOf i s = s.withRunning (latched w i) := by
  rw [← pack_fields w, decodeWord_pack] at hd
  split_ifs at hd <;> cases hd <;> simp [startOf, latched, isCrcCommand, reflField_eq_opcField, Conv.refl, *]

/-- The ranges of R20 on a message of `N` bytes. -/
def Running.InRange (N : Nat) : Running → Prop
  | .crc r => r.j < 8 ∧ (r.k < N ∨ N = 0 ∧ r.k = 0)
  | .build r => r.j < 8 ∧ r.i < 256

/-- A micro-operation names a position, a step or an index inside the ranges of R20. -/
def MicroOp.InRange (N : Nat) : MicroOp → Prop
  | .absorb k => k < N
  | .divide j => j < 8
  | .lookup => True
  | .lookupByte k => k < N
  | .loadIndex i => i < 256
  | .keep => True

theorem latched_inRange (w : Cmd) (i : Instr) (N : Nat) : (latched w i).InRange N := by
  unfold latched
  split
  · exact ⟨Nat.zero_lt_succ 7, by dsimp only; omega⟩
  · exact ⟨Nat.zero_lt_succ 7, Nat.zero_lt_succ 255⟩

theorem divideByte_inRange (N : Nat) : ∀ op ∈ divideByte, op.InRange N := by
  intro op h
  obtain ⟨j, hj, rfl⟩ := List.mem_map.1 h
  exact List.mem_range.1 hj

theorem opsBitwise_inRange {N : Nat} {ks : List Nat} (hk : ∀ k ∈ ks, k < N) : ∀ op ∈ opsBitwise ks, op.InRange N := by
  intro op h
  obtain ⟨k, hks, hop⟩ := List.mem_flatMap.1 h
  rcases List.mem_cons.1 hop with rfl | hop
  · exact hk k hks
  · exact divideByte_inRange N op hop

theorem opsTableNormal_inRange {N : Nat} {ks : List Nat} (hk : ∀ k ∈ ks, k < N) :
    ∀ op ∈ opsTableNormal ks, op.InRange N := by
  intro op h
  obtain ⟨k, hks, rfl⟩ := List.mem_map.1 h
  exact hk k hks

theorem opsTableReflected_inRange {N : Nat} {ks : List Nat} (hk : ∀ k ∈ ks, k < N) :
    ∀ op ∈ opsTableReflected ks, op.InRange N := by
  intro op h
  obtain ⟨k, hks, hop⟩ := List.mem_flatMap.1 h
  rcases List.mem_pair.1 hop with rfl | rfl
  · exact hk k hks
  · trivial

theorem opsBuild_inRange (N : Nat) : ∀ op ∈ opsBuild, op.InRange N := by
  intro op h
  obtain ⟨i, hi, hop⟩ := List.mem_flatMap.1 h
  rcases List.mem_cons.1 hop with rfl | hop
  · exact List.mem_range.1 hi
  · rcases List.mem_append.1 hop with hop | hop
    · exact divideByte_inRange N op hop
    · rw [List.mem_singleton.1 hop]
      trivial

theorem opsOf_inRange (i : Instr) (N : Nat) : ∀ op ∈ opsOf i N, op.InRange N := by
  cases i with
  | buildTableNormal p => exact opsBuild_inRange N
  | buildTableReflected p => exact opsBuild_inRange N
  | crcBitwiseNormal p => exact opsBitwise_inRange fun _ => positions_lt
  | crcBitwiseReflected p => exact opsBitwise_inRange fun _ => positions_lt
  | crcTableNormal => exact opsTableNormal_inRange fun _ => positions_lt
  | crcTableReflected => exact opsTableReflected_inRange fun _ => positions_lt

/-- A micro-operation in range keeps the ranges of R20. -/
theorem microOp_keeps_inRange {op : MicroOp} {N : Nat} {s : State} {q r : Running} (hop : op.InRange N)
    (hq : q.InRange N) (h : microOp op (s.withRunning q) = .ok (s.withRunning r)) : r.InRange N := by
  cases q with
  | crc q =>
    obtain ⟨hj, hk⟩ := hq
    cases op <;> simp only [microOp, withRunning_running, withRunning_withRunning] at h
    case absorb k =>
      split at h
      · cases withRunning_inj (Except.ok.inj h)
        exact ⟨hj, .inl hop⟩
      · cases h
    case divide j => cases withRunning_inj (Except.ok.inj h); exact ⟨hop, hk⟩
    case lookup =>
      split at h
      · cases withRunning_inj (Except.ok.inj h)
        exact ⟨hj, hk⟩
      · cases h
    case lookupByte k =>
      split at h
      · split at h
        · cases withRunning_inj (Except.ok.inj h)
          exact ⟨hj, .inl hop⟩
        · cases h
      · cases h
    all_goals cases h
  | build q =>
    obtain ⟨hj, hi⟩ := hq
    cases op <;> simp only [microOp, withRunning_running, withRunning_withRunning] at h
    case loadIndex i => cases withRunning_inj (Except.ok.inj h); exact ⟨hj, hop⟩
    case divide j => cases withRunning_inj (Except.ok.inj h); exact ⟨hop, hi⟩
    case keep => cases withRunning_inj (Except.ok.inj h); exact ⟨hj, hi⟩
    all_goals cases h

/-- Micro-operations in range keep the ranges of R20, and REFL and P as latched. -/
theorem runOps_keeps_inRange {ops : List MicroOp} {N : Nat} {s t : State} {q : Running}
    (hops : ∀ op ∈ ops, op.InRange N) (hq : q.InRange N) (h : runOps ops (s.withRunning q) = .ok t) :
    ∃ r, t = s.withRunning r ∧ SameCommand q r ∧ r.InRange N := by
  induction ops generalizing q with
  | nil => cases h; exact ⟨q, rfl, SameCommand.rfl' q, hq⟩
  | cons op ops ih =>
    simp only [runOps] at h
    split at h
    · rename_i u hu
      obtain ⟨q', r, hq', rfl, hs⟩ := microOp_ok hu
      cases hq'
      have hr := microOp_keeps_inRange (hops op List.mem_cons_self) hq hu
      obtain ⟨r', rfl, hs', hr'⟩ := ih (fun o ho => hops o (List.mem_cons_of_mem _ ho)) hr h
      exact ⟨r', rfl, hs.trans' hs', hr'⟩
    · cases h

/-- A command cut short has the transient state its word latched, in the ranges of R20. -/
theorem inProgress_transient {w : Cmd} {i : Instr} {n : Nat} {s t : State} (hd : decodeWord w = .ok i)
    (hc : checkOf i s = none) (h : inProgress w n s = .ok t) :
    ∃ r, t = s.withRunning r ∧ SameCommand (latched w i) r ∧ r.InRange s.msg.length := by
  rw [inProgress_of_running hd hc, startOf_eq_latched hd] at h
  exact runOps_keeps_inRange (fun op ho => opsOf_inRange i _ op (List.mem_of_mem_take ho)) (latched_inRange w i _) h

theorem sameCommand_latched_crc {w : Cmd} {i : Instr} {r : Running} (hi : isCrcCommand i = true)
    (h : SameCommand (latched w i) r) : ∃ c, r = .crc c ∧ c.refl = reflField w ∧ c.poly = polyField w := by
  rw [latched, if_pos hi] at h
  cases r with
  | crc c =>
    obtain ⟨hrefl, hpoly⟩ := h
    exact ⟨c, rfl, hrefl.symm, hpoly.symm⟩
  | build b => exact h.elim

theorem sameCommand_latched_build {w : Cmd} {i : Instr} {r : Running} (hi : isCrcCommand i = false)
    (h : SameCommand (latched w i) r) : ∃ b, r = .build b ∧ b.refl = reflField w ∧ b.poly = polyField w := by
  rw [latched, if_neg (by simp [hi])] at h
  cases r with
  | crc c => exact h.elim
  | build b =>
    obtain ⟨hrefl, hpoly⟩ := h
    exact ⟨b, rfl, hrefl.symm, hpoly.symm⟩

/-- Settles O39: a command starts in the ranges of R20, and its micro-operations keep them. -/
theorem transientStateStaysInRange : Obligations.TransientStateStaysInRange := by
  intro s t w n h
  refine ⟨fun hw => ?_, fun i hd => ⟨fun st hc => ?_, fun hc hi => ?_, fun hc hi => ?_⟩⟩
  · rw [inProgress_of_illegal hw] at h
    cases h; rfl
  · rw [inProgress_of_check hd hc] at h
    cases h; rfl
  · obtain ⟨r, rfl, hs, hr⟩ := inProgress_transient hd hc h
    obtain ⟨c, rfl, hrefl, hpoly⟩ := sameCommand_latched_crc hi hs
    obtain ⟨hj, hk⟩ := hr
    rw [List.length_eq_zero_iff] at hk
    exact ⟨c, rfl, hrefl, hpoly, hj, hk⟩
  · obtain ⟨r, rfl, hs, hr⟩ := inProgress_transient hd hc h
    obtain ⟨b, rfl, hrefl, hpoly⟩ := sameCommand_latched_build hi hs
    obtain ⟨hj, hindex⟩ := hr
    exact ⟨b, rfl, hrefl, hpoly, hj, hindex⟩

end Sys2Proof.Machine
end

section
/-! ACC after the operations of the first `n` bytes consumed (R18). -/

namespace Sys2Proof.Machine

/-- Cutting a loop of `c` operations a position after `n` rounds leaves the loop over the first `n` positions. -/
theorem take_flatMap_rounds {α β : Type} {f : α → List β} {c : Nat} (hf : ∀ a, (f a).length = c) (l : List α) (n : Nat) :
    (l.flatMap f).take (c * n) = (l.take n).flatMap f := by
  induction l generalizing n with
  | nil => simp
  | cons a l ih =>
    cases n with
    | zero => simp
    | succ n =>
      rw [List.flatMap_cons, List.take_succ_cons, List.flatMap_cons, ← ih n, Nat.mul_succ, Nat.add_comm, ← hf a,
        List.take_length_add_append]

/-- Nine operations a byte: one absorbs it, eight divide (R74, R75). -/
theorem opsBitwise_take (ks : List Nat) (n : Nat) : (opsBitwise ks).take (9 * n) = opsBitwise (ks.take n) :=
  take_flatMap_rounds (f := fun k => MicroOp.absorb k :: divideByte) (fun _ => rfl) ks n

/-- One operation a byte (R83). -/
theorem opsTableNormal_take (ks : List Nat) (n : Nat) : (opsTableNormal ks).take n = opsTableNormal (ks.take n) :=
  List.map_take.symm

/-- Two operations a byte: one absorbs it, one looks up (R84). -/
theorem opsTableReflected_take (ks : List Nat) (n : Nat) :
    (opsTableReflected ks).take (2 * n) = opsTableReflected (ks.take n) :=
  take_flatMap_rounds (f := fun k => [MicroOp.absorb k, .lookup]) (fun _ => rfl) ks n

/-- The bytes a normal command consumes first (R33). -/
theorem map_take_positions_normal (m : List Byte) (n : Nat) :
    (((positions .normal m.length).take n).map fun k => m.getD k 0#8) = m.take n := by
  rw [List.map_take, map_positions_normal]

/-- The bytes a reflected command consumes first (R33): the last ones, last byte first. -/
theorem map_take_positions_reflected (m : List Byte) (n : Nat) :
    (((positions .reflected m.length).take n).map fun k => m.getD k 0#8) = (m.drop (m.length - n)).reverse := by
  rw [List.map_take, map_positions_reflected, List.take_reverse]

theorem take_positions_lt {c : Conv} {N n : Nat} : ∀ k ∈ (positions c N).take n, k < N :=
  fun _ h => positions_lt (List.mem_of_mem_take h)

/-- ACC of a bitwise command after `n` bytes (R74, R75). -/
theorem inProgress_bitwise {c : Conv} {w : Cmd} {i : Instr} {p : Byte} {s : State} (hd : decodeWord w = .ok i)
    (hc : checkOf i s = none) (hstart : startOf i s = startCrc c p s)
    (hops : opsOf i s.msg.length = opsBitwise (positions c s.msg.length)) (n : Nat) :
    ∃ (t : State) (r : CrcRun), inProgress w (9 * n) s = .ok t ∧ t.running = some (.crc r) ∧
      r.acc = (((positions c s.msg.length).take n).map fun k => s.msg.getD k 0#8).foldl
        (fun a b => builtTable c p (a ^^^ b)) 0x00#8 := by
  obtain ⟨k, j, h⟩ := runOps_bitwise s _ (take_positions_lt (n := n)) ⟨c.refl, p, 0x00#8, 0, 0⟩
  rw [ofRefl_refl] at h
  refine ⟨_, _, Eq.trans ?_ h, withRunning_running _ _, rfl⟩
  rw [inProgress_of_running hd hc, hops, opsBitwise_take, hstart, startCrc_eq]

theorem checkLength_of_lengthAccepted {s : State} (hl : LengthAccepted s) : checkLength s = none := by
  rw [checkLength_eq, (lengthExceeded_eq_false_iff s).2 hl, if_neg Bool.false_ne_true]

theorem checkTable_of_lengthAccepted {c : Conv} {s : State} (hl : LengthAccepted s) (hv : (s.slot c).valid = true) :
    checkTable c s = none :=
  (checkTable_eq_none_iff c s).2 ⟨(lengthExceeded_eq_false_iff s).2 hl, hv⟩

/-- Settles O40: the operations of `n` bytes are the loop over the first `n` positions, whose bytes are the first `n` of
the message or its last `n` from the end. -/
theorem accumulatorIsTheCrcOfTheBytesConsumed : Obligations.AccumulatorIsTheCrcOfTheBytesConsumed := by
  intro s w n _ hl
  refine ⟨fun p hd => ?_, fun p hd => ?_, fun tab hd hv ht => ?_, fun tab hd hv ht => ?_⟩
  · obtain ⟨t, r, h, hr, hacc⟩ := inProgress_bitwise (c := .normal) hd (checkLength_of_lengthAccepted hl) rfl rfl n
    rw [map_take_positions_normal] at hacc
    exact ⟨t, r, h, hr, hacc⟩
  · obtain ⟨t, r, h, hr, hacc⟩ := inProgress_bitwise (c := .reflected) hd (checkLength_of_lengthAccepted hl) rfl rfl n
    rw [map_take_positions_reflected] at hacc
    exact ⟨t, r, h, hr, hacc⟩
  · obtain ⟨k, j, h⟩ := runOps_tableNormal s tab _ (take_positions_lt (c := .normal) (n := n))
      ⟨Conv.refl .normal, 0x00#8, 0x00#8, 0, 0⟩ ht
    rw [map_take_positions_normal, ← opsTableNormal_take] at h
    exact ⟨_, _, (inProgress_of_running hd (checkTable_of_lengthAccepted hl hv) n).trans h, withRunning_running _ _, rfl⟩
  · obtain ⟨k, j, h⟩ := runOps_tableReflected s tab _ (take_positions_lt (c := .reflected) (n := n))
      ⟨Conv.refl .reflected, 0x00#8, 0x00#8, 0, 0⟩ ht
    rw [map_take_positions_reflected, ← opsTableReflected_take] at h
    exact ⟨_, _, (inProgress_of_running hd (checkTable_of_lengthAccepted hl hv) _).trans h, withRunning_running _ _, rfl⟩

end Sys2Proof.Machine
end

section
/-! What a step that takes a command runs, and what the commands behind one another answer (R31, R40, R42, R47, R117). -/

namespace Sys2Proof.Machine

/-! ### The decoded command -/

/-- The byte decoder reads back the word laid out in its serial bytes (R52, R57). -/
theorem decodeWord_of_decodeTableWord {nbits w : Nat} {i : Instr} (h : decodeTableWord nbits w = some i) :
    decodeWord (layWord nbits w) = .ok i := by
  rw [decodeTableWord, bytesOfWord, decodeBytes, wordOfBytes, pack_fields] at h
  cases hd : decodeWord (layWord nbits w) with
  | ok j =>
    rw [hd] at h
    exact congrArg Except.ok (Option.some.inj h)
  | error e =>
    rw [hd] at h
    cases h

/-- Settles O7: the step captures the message and gives the word to the decoder; withFetchWord only puts its word first. -/
theorem stepRunsTheDecodedCommand : Obligations.StepRunsTheDecodedCommand :=
  ⟨fun _ _ _ _ _ he hd => step_command_of_decodeWord he hd,
    fun _ _ _ _ hd => step_command_of_decodeWord rfl (decodeWord_of_decodeTableWord hd)⟩

/-! ### Commands in order -/

/-- From the slot invariant a step that takes a command, legal or not, sends one response and leaves what waits behind it
(R40, R90). -/
theorem step_command_answers {s : State} {w : Cmd} {m : List Byte} {rest : List HostEvent} (hs : SlotInvariant s)
    (he : s.inbox = .command w m :: rest) :
    ∃ (t : State) (r : Response), step s = .next t ∧ t.outbox = s.outbox ++ [r] ∧ t.inbox = rest := by
  cases hd : decodeWord w with
  | ok i =>
    obtain ⟨t, ht⟩ := exec_answers (s := issue m rest s) hs i
    obtain ⟨r, hout, -⟩ := exec_response ht
    obtain ⟨-, -, hin⟩ := exec_ends ht
    exact ⟨t, r, (step_command_of_decodeWord he hd).trans ht, hout, hin⟩
  | error e => exact ⟨_, ⟨.illegalCommand, .none⟩, by rw [step_command he, runWord, hd], rfl, rfl⟩

/-- Settles O33, by induction on the commands that wait: the first one takes one step and sends the first response, and the
invariant holds after it. -/
theorem responsesLeaveInCommandOrder : Obligations.ResponsesLeaveInCommandOrder := by
  intro s cmds rest hi he
  induction cmds generalizing s with
  | nil =>
    refine ⟨[], rfl, fun k hk => ?_⟩
    obtain rfl := Nat.le_zero.1 hk
    exact ⟨s, run_zero s, (List.append_nil _).symm, he⟩
  | cons c cmds ih =>
    obtain ⟨t, r, hstep, hout, hin⟩ := step_command_answers hi.slots he
    obtain ⟨rs, hlen, hrs⟩ := ih t (step_keeps_invariant hi hstep) hin
    refine ⟨r :: rs, congrArg Nat.succ hlen, fun k hk => ?_⟩
    cases k with
    | zero => exact ⟨s, run_zero s, (List.append_nil _).symm, he⟩
    | succ k =>
      obtain ⟨u, hrun, houtu, hinu⟩ := hrs k (Nat.le_of_succ_le_succ hk)
      refine ⟨u, (run_succ hstep k).trans hrun, ?_, hinu⟩
      rw [houtu, hout, List.take_succ_cons, List.append_assoc, List.singleton_append]

/-- Settles O46: a command answers alike whatever waits, since it reads the parameter, the slots and its message only. -/
theorem commandsSeeOnlyTheirOwnMessage : Obligations.CommandsSeeOnlyTheirOwnMessage := by
  intro s t w m rest later h
  cases hd : decodeWord w with
  | ok i =>
    rw [step_command_of_decodeWord rfl hd] at h ⊢
    rcases exec_congr (s := issue m rest s) (t := issue m later s) rfl rfl (fun c _ => by simp) h with
      ⟨st, v, -, rfl, hexec⟩ | ⟨v, c, sl, -, rfl, hexec⟩
    · exact hexec
    · cases c <;> exact hexec
  | error e =>
    rw [step_command rfl, runWord, hd] at h ⊢
    cases h
    rfl

/-! ### CRC commands in either order -/

theorem respond_inj {st st' : Status} {v v' : Value} {s : State} (h : respond st v s = respond st' v' s) :
    st = st' ∧ v = v' := by
  simpa using congrArg State.outbox h

/-- In every state with the parameter and the slots of `s`, the command `i` on the message `m` sends `r` and does nothing
else (R42, R105). -/
def OnlySends (s : State) (i : Instr) (m : List Byte) (r : Response) : Prop :=
  ∀ (t : State) (rest : List HostEvent), t.cfg = s.cfg → (∀ c, t.slot c = s.slot c) →
    exec i (issue m rest t) = .next (respond r.status r.value (issue m rest t))

/-- From the slot invariant a CRC command has one response. -/
theorem exists_onlySends_of_isCrcCommand {s : State} (hs : SlotInvariant s) {i : Instr} (hi : isCrcCommand i = true)
    (m : List Byte) : ∃ r, OnlySends s i m r := by
  obtain ⟨s', hs'⟩ := exec_answers (s := issue m [] s) hs i
  have hcongr : ∀ (t : State) (rest : List HostEvent), t.cfg = s.cfg → (∀ c, t.slot c = s.slot c) →
      ∃ st v, s' = respond st v (issue m [] s) ∧ exec i (issue m rest t) = .next (respond st v (issue m rest t)) := by
    intro t rest hc ht
    rcases exec_congr (s := issue m [] s) (t := issue m rest t) hc.symm rfl (fun c _ => by simp [ht c]) hs' with
      ⟨st, v, -, hr, hexec⟩ | ⟨v, c, sl, hw, -, -⟩
    · exact ⟨st, v, hr, hexec⟩
    · rw [slotWrittenBy_of_isCrcCommand hi] at hw
      cases hw
  obtain ⟨st, v, hr, -⟩ := hcongr s [] rfl fun _ => rfl
  refine ⟨⟨st, v⟩, fun t rest hc ht => ?_⟩
  obtain ⟨st', v', hr', hexec⟩ := hcongr t rest hc ht
  obtain ⟨rfl, rfl⟩ := respond_inj (hr.symm.trans hr')
  exact hexec

theorem run_two {s t u : State} (h1 : step s = .next t) (h2 : step t = .next u) : Sys2Proof.core.run 2 s = .next u := by
  rw [run_succ h1, run_succ h2, run_zero]

/-- Two steps take two commands that wait, where each of them only responds. -/
theorem run_two_commands {s : State} {v w : Cmd} {a b : List Byte} {i j : Instr} {q r : Response}
    {rest : List HostEvent} (hv : decodeWord v = .ok i) (hw : decodeWord w = .ok j)
    (hi : OnlySends s i a q) (hj : OnlySends s j b r) :
    Sys2Proof.core.run 2 { s with inbox := .command v a :: .command w b :: rest } =
      .next { s with msg := [], running := none, inbox := rest, outbox := s.outbox ++ [q] ++ [r] } :=
  run_two ((step_command_of_decodeWord rfl hv).trans (hi _ _ rfl fun c => by cases c <;> rfl))
    ((step_command_of_decodeWord rfl hw).trans (hj _ _ rfl fun c => by cases c <;> rfl))

/-! ### A build and a table command of its convention -/

theorem decodeWord_encode (i : Instr) : decodeWord (encode i) = .ok i := by
  cases i with
  | buildTableNormal p => simp [encode, decodeWord_pack]
  | buildTableReflected p => simp [encode, decodeWord_pack]
  | crcBitwiseNormal p => simp [encode, decodeWord_pack]
  | crcBitwiseReflected p => simp [encode, decodeWord_pack]
  | crcTableNormal => rfl
  | crcTableReflected => rfl

/-- The build of a convention (R66, R67). -/
def buildOf (c : Conv) (p : Byte) : Instr :=
  match c with
  | .normal => .buildTableNormal p
  | .reflected => .buildTableReflected p

/-- The table command of a convention (R83, R84). -/
def lookOf (c : Conv) : Instr :=
  match c with
  | .normal => .crcTableNormal
  | .reflected => .crcTableReflected

theorem exec_buildOf (c : Conv) (p : Byte) (s : State) :
    exec (buildOf c p) s = .next (respond .ok (.table (entriesOf (builtTable c p)))
      (s.setSlot c ⟨true, some p, cellsOf (builtTable c p)⟩)) := by
  cases c
  · exact perform_build .normal p s
  · exact perform_build .reflected p s

theorem checkOf_lookOf (c : Conv) (s : State) : checkOf (lookOf c) s = checkTable c s := by cases c <;> rfl

theorem exec_lookOf_noTable {c : Conv} {s : State} (hl : lengthExceeded s = false) (hv : (s.slot c).valid = false) :
    exec (lookOf c) s = .next (respond .noTable .none s) := by
  rw [exec_eq_perform, checkOf_lookOf, checkTable_eq, hl, hv, if_neg Bool.false_ne_true, if_neg Bool.false_ne_true,
    perform_some, raise_eq]

theorem exec_lookOf_ok {c : Conv} {s : State} {t : Byte → Byte} (hl : lengthExceeded s = false)
    (hv : (s.slot c).valid = true) (ht : SlotReads s c t) :
    ∃ b, exec (lookOf c) s = .next (respond .ok (.crc b) s) := by
  cases c
  · exact ⟨_, perform_tableNormal s t hl hv ht⟩
  · exact ⟨_, perform_tableReflected s t hl hv ht⟩

theorem lengthExceeded_of_unbounded {s : State} (h : s.cfg.msgLenMax = none) : lengthExceeded s = false := by
  rw [lengthExceeded, h]

/-- A step that takes a build answers OK and leaves its slot valid with its table (R66, R67). -/
theorem step_buildOf {s : State} {c : Conv} {p : Byte} {m : List Byte} {rest : List HostEvent}
    (he : s.inbox = .command (encode (buildOf c p)) m :: rest) :
    ∃ (t : State) (v : Value), step s = .next t ∧ t.inbox = rest ∧ t.outbox = s.outbox ++ [⟨.ok, v⟩] ∧
      t.slot c = ⟨true, some p, cellsOf (builtTable c p)⟩ :=
  ⟨_, .table (entriesOf (builtTable c p)),
    (step_command_of_decodeWord he (decodeWord_encode _)).trans (exec_buildOf c p _), by rw [respond_inbox, setSlot_inbox, issue_inbox],
    by rw [respond_outbox, setSlot_outbox, issue_outbox], by rw [respond_slot, setSlot_slot]⟩

/-- Without a bound on the message, a step that takes a table command finds its slot not valid and answers NO_TABLE. -/
theorem step_lookOf_noTable {s : State} {c : Conv} {m : List Byte} {rest : List HostEvent}
    (he : s.inbox = .command (encode (lookOf c)) m :: rest) (hu : s.cfg.msgLenMax = none)
    (hv : (s.slot c).valid = false) :
    ∃ t : State, step s = .next t ∧ t.inbox = rest ∧ t.outbox = s.outbox ++ [⟨.noTable, .none⟩] :=
  ⟨_, (step_command_of_decodeWord he (decodeWord_encode _)).trans
    (exec_lookOf_noTable (lengthExceeded_of_unbounded hu) (by rw [issue_slot, hv])), rfl, rfl⟩

/-- Without a bound on the message, a step that takes a table command on a valid slot with a whole table answers OK. -/
theorem step_lookOf_ok {s : State} {c : Conv} {m : List Byte} {rest : List HostEvent} {tab : Byte → Byte}
    (he : s.inbox = .command (encode (lookOf c)) m :: rest) (hu : s.cfg.msgLenMax = none)
    (hv : (s.slot c).valid = true) (ht : SlotReads s c tab) :
    ∃ (t : State) (b : Byte), step s = .next t ∧ t.outbox = s.outbox ++ [⟨.ok, .crc b⟩] := by
  obtain ⟨b, hexec⟩ := exec_lookOf_ok (s := issue m rest s) (t := tab) (lengthExceeded_of_unbounded hu)
    (by rw [issue_slot, hv]) fun i => by rw [issue_slot, ht i]
  exact ⟨_, b, (step_command_of_decodeWord he (decodeWord_encode _)).trans hexec, rfl⟩

/-- Behind the build of its convention a table command answers OK. -/
theorem run_build_look {s : State} {c : Conv} {p : Byte} {a m : List Byte} {rest : List HostEvent}
    (he : s.inbox = .command (encode (buildOf c p)) a :: .command (encode (lookOf c)) m :: rest)
    (hu : s.cfg.msgLenMax = none) :
    ∃ (t : State) (v : Value) (b : Byte), Sys2Proof.core.run 2 s = .next t ∧
      t.outbox = s.outbox ++ [⟨.ok, v⟩] ++ [⟨.ok, .crc b⟩] := by
  obtain ⟨t, v, hbuild, hin, hout, hslot⟩ := step_buildOf he
  obtain ⟨u, b, hlook, houtu⟩ := step_lookOf_ok hin (by rw [step_keeps_cfg hbuild, hu]) (by rw [hslot])
    (fun i => by rw [hslot, read_cellsOf])
  exact ⟨u, v, b, run_two hbuild hlook, by rw [houtu, hout]⟩

/-- Before the build of its convention a table command on a slot not valid answers NO_TABLE. -/
theorem run_look_build {s : State} {c : Conv} {p : Byte} {a m : List Byte} {rest : List HostEvent}
    (he : s.inbox = .command (encode (lookOf c)) m :: .command (encode (buildOf c p)) a :: rest)
    (hu : s.cfg.msgLenMax = none) (hv : (s.slot c).valid = false) :
    ∃ (t : State) (v : Value), Sys2Proof.core.run 2 s = .next t ∧
      t.outbox = s.outbox ++ [⟨.noTable, .none⟩] ++ [⟨.ok, v⟩] := by
  obtain ⟨t, hlook, hin, hout⟩ := step_lookOf_noTable he hu hv
  obtain ⟨u, v, hbuild, -, houtu, -⟩ := step_buildOf hin
  exact ⟨u, v, run_two hlook hbuild, by rw [houtu, hout]⟩

/-- A build and the table command of its convention, as one of the two conventions (R49). -/
theorem eq_buildOf_and_eq_lookOf {p : Byte} {build look : Instr}
    (h : build = .buildTableNormal p ∧ look = .crcTableNormal ∨
      build = .buildTableReflected p ∧ look = .crcTableReflected) :
    ∃ c, build = buildOf c p ∧ look = lookOf c := by
  rcases h with ⟨rfl, rfl⟩ | ⟨rfl, rfl⟩
  · exact ⟨.normal, rfl, rfl⟩
  · exact ⟨.reflected, rfl, rfl⟩

/-- Settles O48: each of two CRC commands sends the response it has from the first state, in either order; a build makes the
slot valid that its table command finds not valid after reset. -/
theorem crcCommandsCommute : Obligations.CrcCommandsCommute := by
  refine ⟨fun s v w a b i j rest hinv hv hw hi hj => ?_, fun p m build look h => ?_⟩
  · obtain ⟨q, hq⟩ := exists_onlySends_of_isCrcCommand hinv.slots hi a
    obtain ⟨r, hr⟩ := exists_onlySends_of_isCrcCommand hinv.slots hj b
    exact ⟨_, _, q, r, run_two_commands hv hw hq hr, run_two_commands hw hv hr hq, List.append_assoc ..,
      List.append_assoc .., rfl⟩
  · obtain ⟨c, rfl, rfl⟩ := eq_buildOf_and_eq_lookOf h
    obtain ⟨t, v, b, hrun, hout⟩ := run_build_look (s := { State.reset with
      inbox := [.command (encode (buildOf c p)) [], .command (encode (lookOf c)) m] }) rfl rfl
    obtain ⟨u, v', hrun', hout'⟩ := run_look_build (s := { State.reset with
      inbox := [.command (encode (lookOf c)) m, .command (encode (buildOf c p)) []] }) rfl rfl (by cases c <;> rfl)
    exact ⟨t, u, b, hrun, hrun', by rw [hout]; rfl, by rw [hout']; rfl⟩

end Sys2Proof.Machine
end

section
/-! The primitives of the spaces MSG, TBL_N and TBL_R (R30, R36, R37). -/

namespace Sys2Proof.Machine

/-- Settles O34: a micro-operation of a command names a position inside its message. -/
theorem messageReadsStayInsideTheMessage : Obligations.MessageReadsStayInsideTheMessage := by
  refine ⟨fun s k h => ?_, fun s k => readMessage_of_ge, fun i n k h => ?_⟩
  · rw [readMessage, List.getElem?_eq_getElem h]
  · rcases h with h | h <;> exact opsOf_inRange i n _ h

/-- Settles O38: a command in progress has written its transient state and nothing else. -/
theorem runningCommandsChangeOnlyTransientState : Obligations.RunningCommandsChangeOnlyTransientState := by
  intro s t w n h
  rcases inProgress_ok h with rfl | ⟨r, rfl⟩ <;> rfl

/-! ### One table write -/

theorem writeTable_slot (s : State) (c : Conv) (i v : Byte) :
    (writeTable s c i v).slot c = { s.slot c with table := (s.slot c).table.write i.toNat v } :=
  setSlot_slot s c _

theorem writeTable_slot_other (s : State) {c d : Conv} (i v : Byte) (h : d ≠ c) :
    (writeTable s c i v).slot d = s.slot d :=
  setSlot_slot_other s c _ d h

theorem readTable_writeTable_same (s : State) (c : Conv) (i v : Byte) : readTable (writeTable s c i v) c i = .ok v :=
  readTable_of_read (by rw [writeTable_slot, read_write_same])

theorem readTable_writeTable_other (s : State) {c d : Conv} {i j : Byte} (v : Byte) (h : (d, j) ≠ (c, i)) :
    readTable (writeTable s c i v) d j = readTable s d j := by
  by_cases hd : d = c
  · subst hd
    have hj : j.toNat ≠ i.toNat := fun e => h (by rw [BitVec.eq_of_toNat_eq e])
    rw [readTable, writeTable_slot, read_write_other _ v hj, readTable]
  · rw [readTable, writeTable_slot_other s i v hd, readTable]

/-- Settles O35: a table write replaces its slot by one with that entry written. -/
theorem tableReadAfterWrite : Obligations.TableReadAfterWrite := by
  intro s c i v
  refine ⟨readTable_writeTable_same s c i v, fun d j => readTable_writeTable_other s v,
    fun d => writeTable_slot_other s i v, ?_, ?_, setSlot_msg .., setSlot_running .., setSlot_outbox ..,
    setSlot_inbox .., setSlot_cfg .., fun h => ?_⟩
  · rw [writeTable_slot]
  · rw [writeTable_slot]
  · rw [writeTable_slot]
    exact write_wf h i.isLt v

/-! ### The 256 writes of a table -/

/-- A table space after the writes of the first `n` entries of `t`, in index order. -/
def Memory.writeEntries (m : Memory) (t : Byte → Byte) (n : Nat) : Memory :=
  (List.range n).foldl (fun m i => m.write i (t (BitVec.ofNat 8 i))) m

theorem writeEntries_succ (m : Memory) (t : Byte → Byte) (n : Nat) :
    m.writeEntries t (n + 1) = (m.writeEntries t n).write n (t (BitVec.ofNat 8 n)) := by
  simp only [Memory.writeEntries, List.range_succ, List.foldl_append, List.foldl_cons, List.foldl_nil]

theorem read_writeEntries (m : Memory) (t : Byte → Byte) (n i : Nat) :
    (m.writeEntries t n).read i = if i < n then some (t (BitVec.ofNat 8 i)) else m.read i := by
  induction n with
  | zero => rfl
  | succ n ih =>
    rw [writeEntries_succ]
    by_cases h : i = n
    · rw [h, read_write_same, if_pos n.lt_succ_self]
    · simp only [read_write_other _ _ h, ih, Nat.lt_succ_iff_lt_or_eq, h, or_false]

theorem writeEntries_wf {m : Memory} (hm : m.wf) (t : Byte → Byte) {n : Nat} (hn : n ≤ 256) :
    (m.writeEntries t n).wf := by
  induction n with
  | zero => exact hm
  | succ n ih =>
    rw [writeEntries_succ]
    exact write_wf (ih (Nat.le_of_succ_le hn)) hn _

/-- In canonical form no index from 256 up is listed (R30). -/
theorem read_of_wf_of_ge {m : Memory} (hm : m.wf) {i : Nat} (hi : 256 ≤ i) : m.read i = none := by
  obtain ⟨-, hlt⟩ := hm
  induction m with
  | nil => rfl
  | cons c m ih =>
    have hc := hlt c List.mem_cons_self
    rw [read_cons, if_neg (by omega), ih fun d hd => hlt d (List.mem_cons_of_mem _ hd)]

/-- The 256 writes of a table leave a canonical space as the cells of the table, whatever it held. -/
theorem writeEntries_eq_cellsOf {m : Memory} (hm : m.wf) (t : Byte → Byte) : m.writeEntries t 256 = cellsOf t := by
  refine wf_ext (writeEntries_wf hm t le_rfl) (cellsOf_wf t) fun i => ?_
  rw [read_writeEntries, read_cellsOf_nat]
  split
  · rfl
  · exact read_of_wf_of_ge hm (by omega)

theorem setSlot_self (s : State) (c : Conv) : s.setSlot c (s.slot c) = s := by cases c <;> rfl

/-- The first `n` writes of a table to slot `c` write its table space and nothing else (R37). -/
theorem foldl_writeTable_eq (s : State) (c : Conv) (t : Byte → Byte) {n : Nat} (hn : n ≤ 256) :
    (List.range n).foldl (fun x i => writeTable x c (BitVec.ofNat 8 i) (t (BitVec.ofNat 8 i))) s =
      s.setSlot c { s.slot c with table := (s.slot c).table.writeEntries t n } := by
  induction n with
  | zero => exact (setSlot_self s c).symm
  | succ n ih =>
    have hindex : (BitVec.ofNat 8 n).toNat = n := by rw [BitVec.toNat_ofNat, Nat.mod_eq_of_lt (by omega)]
    rw [List.range_succ, List.foldl_append, ih (Nat.le_of_succ_le hn), List.foldl_cons, List.foldl_nil, writeTable,
      setSlot_slot, setSlot_setSlot, writeEntries_succ, hindex]

/-- Settles O36: after the 256 writes the table space is the cells of the table. -/
theorem atomicUpdateIsThe256Writes : Obligations.AtomicUpdateIsThe256Writes := by
  intro s c p t hm
  refine ⟨_, rfl, ?_⟩
  rw [foldl_writeTable_eq s c t le_rfl, setSlot_setSlot, setSlot_slot, writeEntries_eq_cellsOf hm, install_eq]

/-! ### The canonical form along a command and a step -/

theorem storeCanonical_iff (s : State) : StoreCanonical s ↔ ∀ c, (s.slot c).table.wf :=
  ⟨fun ⟨hN, hR⟩ c => by cases c <;> assumption, fun h => ⟨h .normal, h .reflected⟩⟩

/-- A command leaves a slot as it was or installs a whole table. -/
theorem exec_keeps_storeCanonical {i : Instr} {s t : State} (hs : StoreCanonical s) (h : exec i s = .next t) :
    StoreCanonical t := by
  rw [storeCanonical_iff] at hs ⊢
  intro c
  rcases exec_slot h c with hc | ⟨-, p, hc⟩
  · rw [hc]
    exact hs c
  · rw [hc]
    exact cellsOf_wf _

/-- Settles O53, by the cases of a step: idle, a decoded command, an illegal word, a reset. -/
theorem everyStepKeepsTheStoreCanonical : Obligations.EveryStepKeepsTheStoreCanonical := by
  intro s t hs h
  rcases step_next h with ⟨-, rfl⟩ | ⟨w, m, rest, i, -, -, hexec⟩ | ⟨w, m, rest, -, -, rfl⟩ | ⟨e, rest, -, -, rfl⟩
  · exact hs
  · exact exec_keeps_storeCanonical (s := issue m rest s) hs hexec
  · exact hs
  · exact ⟨nil_wf, nil_wf⟩

end Sys2Proof.Machine
end

section
/-! The decoder and the encoder are inverse to each other, and the two serial bytes of a word (R48, R50, R52, R54, R57). -/

namespace Sys2Proof.Machine

/-- A word decodes to at most one command, and a command has that one word (R54). -/
theorem encode_of_decodeWord {w : Cmd} {i : Instr} (h : decodeWord w = .ok i) : encode i = w := by
  rw [← pack_fields w, decodeWord_pack] at h
  rw [← pack_fields w]
  split_ifs at h with h2 h3 h4 h5 h6 hp h7 hp <;> cases h
  · rw [h2, encode]
  · rw [h3, encode]
  · rw [h4, encode]
  · rw [h5, encode]
  · rw [h6, hp]; rfl
  · rw [h7, hp]; rfl

theorem decodeWord_eq_ok_iff {w : Cmd} {i : Instr} : decodeWord w = .ok i ↔ encode i = w :=
  ⟨encode_of_decodeWord, fun h => h ▸ decodeWord_encode i⟩

/-- The byte decoder takes the serial bytes of a command and leaves what follows them (R57). -/
theorem decodeBytes_encodeBytes (i : Instr) (rest : List Byte) : decodeBytes (encodeBytes i ++ rest) = .ok (i, rest) := by
  simp only [encodeBytes, bytesOfWord, List.cons_append, List.nil_append, decodeBytes, wordOfBytes, pack_fields,
    decodeWord_encode]

/-- Settles O2: encoding packs the fields that the decoder reads, and the six opcode bytes tell the commands apart. -/
theorem decodeAndEncodeAgree : Obligations.DecodeAndEncodeAgree :=
  ⟨decodeWord_encode, decodeBytes_encodeBytes, fun _ _ => encode_of_decodeWord⟩

/-! ### The fields as numbers -/

/-- A word as a number of its two fields (R48). -/
theorem toNat_eq_fields (w : Cmd) : w.toNat = 256 * (polyField w).toNat + (opcField w).toNat := by
  rw [← pack_toNat, pack_fields]

theorem polyField_toNat (w : Cmd) : (polyField w).toNat = w.toNat / 256 := by
  have hlt := (opcField w).isLt
  have hw := toNat_eq_fields w
  omega

theorem opcField_toNat (w : Cmd) : (opcField w).toNat = w.toNat % 256 := by
  have hlt := (opcField w).isLt
  have hw := toNat_eq_fields w
  omega

/-- Settles O6: the two serial bytes are the fields OPC and POLY, and packing them gives the word. -/
theorem commandWordTravelsLowByteFirst : Obligations.CommandWordTravelsLowByteFirst := by
  intro w
  refine ⟨?_, fun b0 b1 h => ?_⟩
  · rw [← opcField_toNat, ← polyField_toNat, BitVec.ofNat_toNat, BitVec.ofNat_toNat, BitVec.setWidth_eq,
      BitVec.setWidth_eq, bytesOfWord]
  · rw [bytesOfWord] at h
    cases h
    exact pack_fields w

/-- Settles O5: the word of a command with a polynomial packs it into the upper byte. -/
theorem polynomialOperandIsTheUpperByte : Obligations.PolynomialOperandIsTheUpperByte := by
  refine ⟨fun w p h => ?_, fun p => ⟨⟨_, decodeWord_encode _⟩, ⟨_, decodeWord_encode _⟩, ⟨_, decodeWord_encode _⟩,
    ⟨_, decodeWord_encode _⟩⟩⟩
  have hp : polyField w = p := by
    rcases h with h | h | h | h <;> rw [← encode_of_decodeWord h, encode, polyField_pack]
  rw [← hp, polyField_toNat]

/-- Settles O1: the thirteen words are evaluated. -/
theorem specWordsDecodeAsListed : Obligations.SpecWordsDecodeAsListed := by
  unfold Obligations.SpecWordsDecodeAsListed
  decide

end Sys2Proof.Machine
end

section
/-! The illegal words in the three classes of R55, and what the machine answers them. -/

namespace Sys2Proof.Machine

/-- The words of the class of R55 that a rejection names, by OPC and POLY (log 21). -/
def Rejects : Reject → Cmd → Prop
  | .truncated, _ => False
  | .reservedBits, w => 0x08 ≤ (opcField w).toNat
  | .reservedKind, w => opcField w = 0x00#8 ∨ opcField w = 0x01#8
  | .tablePoly, w => (opcField w = 0x06#8 ∨ opcField w = 0x07#8) ∧ polyField w ≠ 0x00#8

theorem pack_polyField {w : Cmd} {o : Byte} (h : opcField w = o) : pack (polyField w) o = w := by
  rw [← h, pack_fields]

theorem opcode_cases (o : Byte) :
    o = 0x02#8 ∨ o = 0x03#8 ∨ o = 0x04#8 ∨ o = 0x05#8 ∨ (o = 0x06#8 ∨ o = 0x07#8) ∨ (o = 0x00#8 ∨ o = 0x01#8) ∨
      8 ≤ o.toNat := by
  bv_omega

theorem decodeWord_of_rejects {w : Cmd} {e : Reject} (h : Rejects e w) : decodeWord w = .error e := by
  rw [← pack_fields w, decodeWord_pack]
  cases e with
  | truncated => exact h.elim
  | reservedBits =>
    have hne : ∀ k : Byte, k.toNat < 8 → opcField w ≠ k := fun k hk heq => by
      rw [Rejects, heq] at h
      omega
    simp [hne]
  | reservedKind => rcases h with h | h <;> simp [h]
  | tablePoly =>
    obtain ⟨h | h, hp⟩ := h <;> simp [h, hp]

/-- Every word decodes or is in one of the three classes (R53, R55). -/
theorem decodes_or_rejects (w : Cmd) : (∃ i, decodeWord w = .ok i) ∨ ∃ e, Rejects e w := by
  have hw := pack_fields w
  rcases opcode_cases (opcField w) with h | h | h | h | h | h | h
  · exact .inl ⟨.buildTableNormal _, decodeWord_eq_ok_iff.2 (pack_polyField h)⟩
  · exact .inl ⟨.buildTableReflected _, decodeWord_eq_ok_iff.2 (pack_polyField h)⟩
  · exact .inl ⟨.crcBitwiseNormal _, decodeWord_eq_ok_iff.2 (pack_polyField h)⟩
  · exact .inl ⟨.crcBitwiseReflected _, decodeWord_eq_ok_iff.2 (pack_polyField h)⟩
  · by_cases hp : polyField w = 0x00#8
    · rw [hp] at hw
      rcases h with h | h <;> rw [h] at hw
      · exact .inl ⟨.crcTableNormal, decodeWord_eq_ok_iff.2 hw⟩
      · exact .inl ⟨.crcTableReflected, decodeWord_eq_ok_iff.2 hw⟩
    · exact .inr ⟨.tablePoly, h, hp⟩
  · exact .inr ⟨.reservedKind, h⟩
  · exact .inr ⟨.reservedBits, h⟩

theorem decodeWord_eq_error_iff {w : Cmd} {e : Reject} : decodeWord w = .error e ↔ Rejects e w := by
  refine ⟨fun h => ?_, decodeWord_of_rejects⟩
  rcases decodes_or_rejects w with ⟨i, hi⟩ | ⟨e', he'⟩
  · rw [hi] at h
    cases h
  · rw [decodeWord_of_rejects he'] at h
    cases h
    exact he'

/-- Settles O56: the decoder's names are those of the classes. -/
theorem decoderNamesTheClassOfAnIllegalWord : Obligations.DecoderNamesTheClassOfAnIllegalWord := fun _ =>
  ⟨decodeWord_eq_error_iff, decodeWord_eq_error_iff, decodeWord_eq_error_iff, fun h => decodeWord_eq_error_iff.1 h⟩

theorem isLegal_iff {w : Cmd} : isLegal w = true ↔ ∃ i, decodeWord w = .ok i :=
  ⟨decodeWord_of_isLegal, fun ⟨i, hi⟩ => by rw [isLegal, hi]⟩

theorem isLegal_eq_false_iff {w : Cmd} : isLegal w = false ↔ ∃ e, decodeWord w = .error e := by
  cases hd : decodeWord w <;> simp [isLegal, hd]

theorem isLegal_eq_false_iff_classes {w : Cmd} :
    isLegal w = false ↔ Rejects .reservedKind w ∨ Rejects .reservedBits w ∨ Rejects .tablePoly w := by
  simp only [isLegal_eq_false_iff, decodeWord_eq_error_iff]
  constructor
  · rintro ⟨e, he⟩
    cases e with
    | truncated => exact he.elim
    | reservedBits => exact .inr (.inl he)
    | reservedKind => exact .inl he
    | tablePoly => exact .inr (.inr he)
  · rintro (h | h | h)
    · exact ⟨_, h⟩
    · exact ⟨_, h⟩
    · exact ⟨_, h⟩

/-- A step that takes an illegal word ends its command with ILLEGAL_COMMAND, and reads no message (R53, R55). -/
theorem step_command_of_illegal {s : State} {w : Cmd} {m : List Byte} {rest : List HostEvent}
    (he : s.inbox = .command w m :: rest) (hw : isLegal w = false) :
    step s = .next (respond .illegalCommand .none (issue m rest s)) := by
  obtain ⟨e, hd⟩ := isLegal_eq_false_iff.1 hw
  rw [step_command he, runWord, hd, raise_eq]

end Sys2Proof.Machine
end

section
/-! How many words there are with given fields. -/

namespace Sys2Proof.Machine

/-- The number of words that satisfy `f`. -/
def wordCount (f : Cmd → Bool) : Nat := (List.range 65536).countP fun n => f (BitVec.ofNat 16 n)

/-- The number of bytes that satisfy `f`. -/
def byteCount (f : Byte → Bool) : Nat := (List.range 256).countP fun n => f (BitVec.ofNat 8 n)

theorem ofNat_eq_pack (k : Nat) {j : Nat} (hj : j < 256) :
    BitVec.ofNat 16 (256 * k + j) = pack (BitVec.ofNat 8 k) (BitVec.ofNat 8 j) := by
  apply BitVec.eq_of_toNat_eq
  rw [pack_toNat, BitVec.toNat_ofNat, BitVec.toNat_ofNat, BitVec.toNat_ofNat]
  omega

/-- The words with POLY `k`: one for each opcode byte. -/
theorem countP_block (a b : Byte → Bool) (k : Nat) :
    ((List.range 256).map (256 * k + ·)).countP
        (fun n => a (polyField (BitVec.ofNat 16 n)) && b (opcField (BitVec.ofNat 16 n))) =
      [k].countP (fun n => a (BitVec.ofNat 8 n)) * byteCount b := by
  have hfields : ∀ j ∈ List.range 256, (a (polyField (BitVec.ofNat 16 (256 * k + j))) &&
      b (opcField (BitVec.ofNat 16 (256 * k + j)))) = (a (BitVec.ofNat 8 k) && b (BitVec.ofNat 8 j)) := by
    intro j hj
    rw [ofNat_eq_pack k (List.mem_range.1 hj), polyField_pack, opcField_pack]
  rw [List.countP_map, List.countP_congr fun j hj => by rw [Function.comp_apply, hfields j hj]]
  cases ha : a (BitVec.ofNat 8 k) <;> simp [byteCount, ha]

theorem countP_fields (a b : Byte → Bool) (k : Nat) :
    (List.range (256 * k)).countP
        (fun n => a (polyField (BitVec.ofNat 16 n)) && b (opcField (BitVec.ofNat 16 n))) =
      (List.range k).countP (fun n => a (BitVec.ofNat 8 n)) * byteCount b := by
  induction k with
  | zero => simp
  | succ k ih =>
    rw [Nat.mul_succ, List.range_add, List.countP_append, ih, countP_block, List.range_succ,
      List.countP_append, Nat.add_mul]

/-- A condition on each field: the choices for POLY times the choices for the opcode byte. -/
theorem wordCount_fields (a b : Byte → Bool) :
    wordCount (fun w => a (polyField w) && b (opcField w)) = byteCount a * byteCount b := by
  rw [wordCount, show 65536 = 256 * 256 from rfl, countP_fields, byteCount, byteCount]

theorem byteCount_true : byteCount (fun _ => true) = 256 := by decide +kernel

theorem byteCount_beq (b : Byte) : byteCount (· == b) = 1 := by
  have h : ∀ n ∈ List.range 256, (BitVec.ofNat 8 n == b) = true ↔ (n == b.toNat) = true := by
    intro n hn
    have hlt := List.mem_range.1 hn
    simp only [beq_iff_eq]
    bv_omega
  rw [byteCount, List.countP_congr h]
  exact List.count_eq_one_of_mem List.nodup_range (List.mem_range.2 b.isLt)

theorem wordCount_not (f : Cmd → Bool) : wordCount f + wordCount (fun w => !f w) = 65536 := by
  have h := List.length_eq_countP_add_countP (fun n => f (BitVec.ofNat 16 n)) (l := List.range 65536)
  rw [List.length_range] at h
  simpa [wordCount] using h.symm

theorem countP_or_of_disjoint {α : Type} {p q : α → Bool} (h : ∀ x, p x = true → q x = false) (l : List α) :
    l.countP (fun x => p x || q x) = l.countP p + l.countP q := by
  induction l with
  | nil => rfl
  | cons x l ih =>
    cases hp : p x with
    | false => simp [List.countP_cons, ih, hp]; omega
    | true => simp [ih, hp, h x hp]; omega

/-- Conditions of which no word satisfies two are counted one by one. -/
theorem wordCount_any {ρ : Type} {f : ρ → Cmd → Bool} {rows : List ρ}
    (h : rows.Pairwise fun r q => ∀ w, f r w = true → f q w = false) :
    wordCount (fun w => rows.any (f · w)) = (rows.map fun r => wordCount (f r)).sum := by
  induction h with
  | nil => simp [wordCount]
  | @cons r rows hr _ ih =>
    rw [List.map_cons, List.sum_cons, ← ih]
    refine countP_or_of_disjoint (fun n hn => ?_) _
    rw [List.any_eq_false]
    exact fun q hq => by rw [hr q hq _ hn]; exact Bool.false_ne_true

end Sys2Proof.Machine
end

section
/-! The opcode map (R54): the words each row admits, and their number. -/

namespace Sys2Proof.Machine

/-- The mask 0x00FF of R54 leaves the opcode byte. -/
theorem admits_low_mask (name : String) (o : Byte) (w : Cmd) :
    OpcodeRow.admits ⟨name, pack 0x00#8 o, 0x00FF#16⟩ w = (opcField w == o) := by
  rw [OpcodeRow.admits, ← pack_fields w, Laws.OpcodeRow.pack_and_mask, pack_fields, Bool.eq_iff_iff, beq_iff_eq, beq_iff_eq]
  exact ⟨fun h => by simpa using congrArg opcField h, fun h => by rw [h]⟩

/-- The mask 0xFFFF of R54 leaves the word. -/
theorem admits_full_mask (name : String) (o : Byte) (w : Cmd) :
    OpcodeRow.admits ⟨name, pack 0x00#8 o, 0xFFFF#16⟩ w = (polyField w == 0x00#8 && opcField w == o) := by
  have hmask : w &&& 0xFFFF#16 = w := BitVec.and_allOnes
  rw [OpcodeRow.admits, hmask, Bool.eq_iff_iff, Bool.and_eq_true, beq_iff_eq, beq_iff_eq, beq_iff_eq]
  refine ⟨fun h => ?_, fun ⟨hp, ho⟩ => ?_⟩
  · rw [show w = _ from h, polyField_pack, opcField_pack]
    exact ⟨rfl, rfl⟩
  · rw [← hp, ← ho, pack_fields]

/-- The rows of R54, with the match of each as the two bytes of a word. -/
theorem opcodeMap_eq : opcodeMap =
    [ ⟨"build_table_normal", pack 0x00#8 0x02#8, 0x00FF#16⟩, ⟨"build_table_reflected", pack 0x00#8 0x03#8, 0x00FF#16⟩,
      ⟨"crc_bitwise_normal", pack 0x00#8 0x04#8, 0x00FF#16⟩, ⟨"crc_bitwise_reflected", pack 0x00#8 0x05#8, 0x00FF#16⟩,
      ⟨"crc_table_normal", pack 0x00#8 0x06#8, 0xFFFF#16⟩, ⟨"crc_table_reflected", pack 0x00#8 0x07#8, 0xFFFF#16⟩ ] :=
  rfl

/-! ### Rows and commands -/

/-- A word that a row admits is the word of a command of that row. -/
theorem exists_encode_of_admits {r : OpcodeRow} (hr : r ∈ opcodeMap) {w : Cmd} (h : r.admits w = true) :
    ∃ i : Instr, encode i = w ∧ r.mnemonic = i.mnemonic := by
  simp only [opcodeMap_eq, List.mem_cons, List.not_mem_nil, or_false] at hr
  rcases hr with rfl | rfl | rfl | rfl | rfl | rfl <;>
    simp only [admits_low_mask, admits_full_mask, Bool.and_eq_true, beq_iff_eq] at h
  · exact ⟨.buildTableNormal _, pack_polyField h, rfl⟩
  · exact ⟨.buildTableReflected _, pack_polyField h, rfl⟩
  · exact ⟨.crcBitwiseNormal _, pack_polyField h, rfl⟩
  · exact ⟨.crcBitwiseReflected _, pack_polyField h, rfl⟩
  · obtain ⟨hp, ho⟩ := h
    exact ⟨.crcTableNormal, by rw [← pack_fields w, hp, ho]; rfl, rfl⟩
  · obtain ⟨hp, ho⟩ := h
    exact ⟨.crcTableReflected, by rw [← pack_fields w, hp, ho]; rfl, rfl⟩

theorem exists_row_of_instr (i : Instr) : ∃ r ∈ opcodeMap, r.admits (encode i) = true := by
  have hrow : Laws.OpcodeRow.Statement i := by
    cases i with
    | buildTableNormal p => exact Laws.OpcodeRow.buildTableNormal p
    | buildTableReflected p => exact Laws.OpcodeRow.buildTableReflected p
    | crcBitwiseNormal p => exact Laws.OpcodeRow.crcBitwiseNormal p
    | crcBitwiseReflected p => exact Laws.OpcodeRow.crcBitwiseReflected p
    | crcTableNormal => exact Laws.OpcodeRow.crcTableNormal
    | crcTableReflected => exact Laws.OpcodeRow.crcTableReflected
  obtain ⟨-, r, hr, -, hadmits⟩ := hrow
  exact ⟨r, hr, hadmits⟩

theorem isLegal_iff_admits (w : Cmd) : isLegal w = true ↔ ∃ r ∈ opcodeMap, r.admits w = true := by
  rw [isLegal_iff]
  constructor
  · rintro ⟨i, hi⟩
    rw [← encode_of_decodeWord hi]
    exact exists_row_of_instr i
  · rintro ⟨r, hr, h⟩
    obtain ⟨i, rfl, -⟩ := exists_encode_of_admits hr h
    exact ⟨i, decodeWord_encode i⟩

/-- A row that admits a word is the row of the command it decodes to. -/
theorem mnemonic_of_admits {r : OpcodeRow} (hr : r ∈ opcodeMap) {w : Cmd} {i : Instr} (hi : decodeWord w = .ok i)
    (h : r.admits w = true) : r.mnemonic = i.mnemonic := by
  obtain ⟨j, rfl, hj⟩ := exists_encode_of_admits hr h
  rw [decodeWord_encode] at hi
  cases hi
  exact hj

theorem row_eq_of_mnemonic : ∀ r ∈ opcodeMap, ∀ q ∈ opcodeMap, r.mnemonic = q.mnemonic → r = q := by decide

theorem row_eq_of_admits {r q : OpcodeRow} (hr : r ∈ opcodeMap) (hq : q ∈ opcodeMap) {w : Cmd}
    (h : r.admits w = true) (h' : q.admits w = true) : r = q := by
  obtain ⟨i, hi⟩ := isLegal_iff.1 ((isLegal_iff_admits w).2 ⟨r, hr, h⟩)
  exact row_eq_of_mnemonic r hr q hq (by rw [mnemonic_of_admits hr hi h, mnemonic_of_admits hq hi h'])

/-! ### Numbers of words -/

theorem wordCount_low_mask (name : String) (o : Byte) :
    wordCount (OpcodeRow.admits ⟨name, pack 0x00#8 o, 0x00FF#16⟩) = 256 := by
  rw [funext (admits_low_mask name o)]
  exact (wordCount_fields (fun _ => true) (· == o)).trans (by rw [byteCount_true, byteCount_beq])

theorem wordCount_full_mask (name : String) (o : Byte) :
    wordCount (OpcodeRow.admits ⟨name, pack 0x00#8 o, 0xFFFF#16⟩) = 1 := by
  rw [funext (admits_full_mask name o), wordCount_fields (· == 0x00#8) (· == o), byteCount_beq, byteCount_beq]

theorem opcodeMap_wordCount : opcodeMap.map (fun r => wordCount r.admits) = [256, 256, 256, 256, 1, 1] := by
  simp only [opcodeMap_eq, List.map_cons, List.map_nil, wordCount_low_mask, wordCount_full_mask]

/-- The rows are disjoint, so the legal words are counted row by row. -/
theorem wordCount_isLegal : wordCount isLegal = 1026 := by
  have hany : isLegal = fun w => opcodeMap.any (·.admits w) := by
    funext w
    rw [Bool.eq_iff_iff, isLegal_iff_admits, List.any_eq_true]
  have hdisjoint : opcodeMap.Pairwise fun r q => ∀ w, r.admits w = true → q.admits w = false :=
    (by decide : opcodeMap.Nodup).pairwise_of_forall_ne fun r hr q hq hne w h =>
      Bool.eq_false_iff.2 fun h' => hne (row_eq_of_admits hr hq h h')
  rw [hany, wordCount_any hdisjoint, opcodeMap_wordCount]
  rfl

/-- Settles O3: a row admits the words of its command and no others, and the rows tell the six mnemonics apart. -/
theorem legalWordsAreTheOpcodeMap : Obligations.LegalWordsAreTheOpcodeMap :=
  ⟨rfl, isLegal_iff_admits, fun _ _ hi _ hr h => mnemonic_of_admits hr hi h,
    fun _ hr _ hq _ h h' => row_eq_of_admits hr hq h h', opcodeMap_wordCount, wordCount_isLegal⟩

theorem wordCount_illegal : wordCount (fun w => !isLegal w) = 64510 := by
  have h := wordCount_not isLegal
  rw [wordCount_isLegal] at h
  omega

theorem wordCount_reservedKind : wordCount (fun w => decide (opcField w = 0x00#8 ∨ opcField w = 0x01#8)) = 512 :=
  (wordCount_fields (fun _ => true) fun o => decide (o = 0x00#8 ∨ o = 0x01#8)).trans (by decide +kernel)

theorem wordCount_reservedBits : wordCount (fun w => decide (0x08 ≤ (opcField w).toNat)) = 63488 :=
  (wordCount_fields (fun _ => true) fun o => decide (0x08 ≤ o.toNat)).trans (by decide +kernel)

theorem wordCount_tablePoly :
    wordCount (fun w => decide ((opcField w = 0x06#8 ∨ opcField w = 0x07#8) ∧ polyField w ≠ 0x00#8)) = 510 := by
  rw [funext fun w => (Bool.decide_and ..).trans (Bool.and_comm ..)]
  exact (wordCount_fields (fun p => decide (p ≠ 0x00#8)) fun o => decide (o = 0x06#8 ∨ o = 0x07#8)).trans
    (by decide +kernel)

/-- Settles O4: the classes are those the decoder's rejections name, and a rejected word never reaches a command. -/
theorem illegalWordsAnswerIllegalCommand : Obligations.IllegalWordsAnswerIllegalCommand :=
  ⟨fun _ => isLegal_eq_false_iff_classes, wordCount_reservedKind, wordCount_reservedBits, wordCount_tablePoly,
    wordCount_illegal, fun _ _ _ _ => step_command_of_illegal⟩

end Sys2Proof.Machine
end

section
/-! A build reads no message and checks no length (R47). -/

namespace Sys2Proof.Machine

theorem buildOf_ignores_message_and_bound (c : Conv) {p : Byte} {s t : State} (m : List Byte) (b : Option Nat)
    (h : exec (buildOf c p) s = .next t) :
    exec (buildOf c p) { s with msg := m, cfg := ⟨b⟩ } = .next { t with cfg := ⟨b⟩ } := by
  rw [exec_buildOf] at h ⊢
  cases h
  cases c <;> rfl

/-- Settles O18: what a build installs and responds is a function of its polynomial. -/
theorem buildIgnoresMessageAndLengthBound : Obligations.BuildIgnoresMessageAndLengthBound := fun _ _ _ m b =>
  ⟨buildOf_ignores_message_and_bound .normal m b, buildOf_ignores_message_and_bound .reflected m b⟩

end Sys2Proof.Machine
end

section
/-! The assembler refuses what is no byte or word, and reads its own listing back (R58). -/

namespace Sys2Proof.Machine

theorem isByte_eq_false {n : Nat} (h : 256 ≤ n) : isByte n = false := decide_eq_false (by omega)

theorem isMessage_eq_false {m : List Nat} (h : ∃ b ∈ m, 256 ≤ b) : isMessage m = false := by
  obtain ⟨b, hb, h⟩ := h
  rw [isMessage, List.all_eq_false]
  exact ⟨b, hb, by rw [isByte_eq_false h]; exact Bool.false_ne_true⟩

theorem assemble_eq_none {l : AsmLine} (h : l.wellFormed = false) : assemble l = none := by
  rw [assemble, h, if_neg Bool.false_ne_true]

theorem assemble_eq_some {l : AsmLine} (h : l.wellFormed = true) : assemble l = some (commandOf l) := by
  rw [assemble, h, if_pos rfl]

/-! ### Listings -/

@[simp] theorem isByte_toNat (b : Byte) : isByte b.toNat = true := decide_eq_true b.isLt

@[simp] theorem isMessage_map_toNat (m : List Byte) : isMessage (m.map BitVec.toNat) = true := by
  simp [isMessage]

@[simp] theorem messageBytes_map_toNat (m : List Byte) : messageBytes (m.map BitVec.toNat) = m := by
  simp [messageBytes, Function.comp_def]

theorem listing_wellFormed (w : Cmd) (m : List Byte) : (listing w m).wellFormed = true := by
  unfold listing
  split <;> simp [AsmLine.wellFormed, w.isLt]

theorem listing_of_illegal {w : Cmd} (hw : isLegal w = false) (m : List Byte) :
    listing w m = .word w.toNat (m.map BitVec.toNat) := by
  obtain ⟨e, hd⟩ := isLegal_eq_false_iff.1 hw
  rw [listing, hd]

theorem commandOf_listing {w : Cmd} {i : Instr} (hd : decodeWord w = .ok i) (m : List Byte) :
    commandOf (listing w m) = .command w (if isCrcCommand i then m else []) := by
  rw [← encode_of_decodeWord hd]
  cases i <;> simp [listing, decodeWord_encode, commandOf, isCrcCommand]

/-- Settles O55: a refused line is not well formed; a listing is, and its command is the word and message listed. The seven
lines of text are evaluated. -/
theorem assemblerRefusesWideValuesAndAgreesWithTheListing :
    Obligations.AssemblerRefusesWideValuesAndAgreesWithTheListing := by
  refine ⟨fun m n hn => ?_, fun m n hm => ?_, fun m n hn => ?_, fun w m i hd => ?_, fun w m hw => ?_, ?_⟩
  · have hb := isByte_eq_false hn
    refine ⟨?_, ?_, ?_, ?_⟩ <;> exact assemble_eq_none (by simp [AsmLine.wellFormed, hb])
  · have hb := isMessage_eq_false hm
    refine ⟨?_, ?_, ?_, ?_, ?_⟩ <;> exact assemble_eq_none (by simp [AsmLine.wellFormed, hb])
  · exact assemble_eq_none (by simp [AsmLine.wellFormed, hn])
  · rw [assemble_eq_some (listing_wellFormed w m), commandOf_listing hd]
  · refine ⟨listing_of_illegal hw m, ?_⟩
    rw [assemble_eq_some (listing_wellFormed w m), listing_of_illegal hw, commandOf, messageBytes_map_toNat,
      BitVec.ofNat_toNat, BitVec.setWidth_eq]
  · decide +kernel

end Sys2Proof.Machine
end

section
/-! The division step as a number, as a linear map, and on zero; the byte division is its eighth iterate (R60 to R63, R68
to R70). -/

namespace Sys2Proof.Machine

/-! ### The step as a number -/

theorem topBit_eq (r : Byte) : topBit r = decide (128 ≤ r.toNat) :=
  (BitVec.msb_eq_getLsbD_last r).symm.trans (BitVec.msb_eq_decide r)

theorem lowBit_eq (r : Byte) : lowBit r = decide (r.toNat % 2 = 1) := Nat.testBit_zero r.toNat

theorem shiftLeft_one_toNat (r : Byte) : (r <<< 1).toNat = 2 * r.toNat % 256 := by
  rw [BitVec.toNat_shiftLeft, Nat.shiftLeft_eq, pow_one, mul_comm]

theorem ushiftRight_one_toNat (r : Byte) : (r >>> 1).toNat = r.toNat / 2 := by
  rw [BitVec.toNat_ushiftRight, Nat.shiftRight_eq_div_pow, pow_one]

theorem stepN_toNat_of_ge {r : Byte} (h : 128 ≤ r.toNat) (p : Byte) :
    (stepN r p).toNat = (2 * r.toNat - 256) ^^^ p.toNat := by
  rw [stepN, if_pos (by rw [topBit_eq, decide_eq_true h]), BitVec.toNat_xor, shiftLeft_one_toNat,
    show 2 * r.toNat % 256 = 2 * r.toNat - 256 by omega]

theorem stepN_toNat_of_lt {r : Byte} (h : r.toNat < 128) (p : Byte) : (stepN r p).toNat = 2 * r.toNat := by
  rw [stepN, if_neg (by simpa [topBit_eq] using h), shiftLeft_one_toNat, Nat.mod_eq_of_lt (by omega)]

theorem stepR_toNat_of_odd {r : Byte} (h : r.toNat % 2 = 1) (p : Byte) :
    (stepR r p).toNat = (r.toNat / 2) ^^^ p.toNat := by
  rw [stepR, if_pos (by rw [lowBit_eq, decide_eq_true h]), BitVec.toNat_xor, ushiftRight_one_toNat]

theorem stepR_toNat_of_even {r : Byte} (h : r.toNat % 2 = 0) (p : Byte) : (stepR r p).toNat = r.toNat / 2 := by
  rw [stepR, if_neg (by simpa [lowBit_eq] using h), ushiftRight_one_toNat]

/-- Settles O12: the bit a step tests splits the bytes at 128 or by parity, and a shift by one doubles or halves. -/
theorem divisionStepsTestShiftAndXor : Obligations.DivisionStepsTestShiftAndXor := fun _ p =>
  ⟨fun h => stepN_toNat_of_ge h p, fun h => stepN_toNat_of_lt h p, fun h => stepR_toNat_of_odd h p,
    fun h => stepR_toNat_of_even h p⟩

/-! ### The step as a linear map -/

/-- XORing `p` under a bit is linear in the bit and the value together. -/
theorem ite_xor_linear (x y p : Byte) (b c : Bool) :
    (if (b ^^ c) then (x ^^^ y) ^^^ p else x ^^^ y) = (if b then x ^^^ p else x) ^^^ (if c then y ^^^ p else y) := by
  cases b <;> cases c
  · rfl
  · exact BitVec.xor_assoc x y p
  · change x ^^^ y ^^^ p = x ^^^ p ^^^ y
    ac_rfl
  · calc x ^^^ y = x ^^^ y ^^^ (p ^^^ p) := by rw [BitVec.xor_self, BitVec.xor_zero]
      _ = x ^^^ p ^^^ (y ^^^ p) := by ac_rfl

theorem divStep_xor (c : Conv) (a b p : Byte) : divStep c (a ^^^ b) p = divStep c a p ^^^ divStep c b p := by
  cases c with
  | normal =>
    change stepN (a ^^^ b) p = stepN a p ^^^ stepN b p
    rw [stepN, topBit, BitVec.getLsbD_xor, BitVec.shiftLeft_xor_distrib]
    exact ite_xor_linear _ _ p _ _
  | reflected =>
    change stepR (a ^^^ b) p = stepR a p ^^^ stepR b p
    rw [stepR, lowBit, BitVec.getLsbD_xor, BitVec.ushiftRight_xor_distrib]
    exact ite_xor_linear _ _ p _ _

/-- A byte division, and so an entry of a table, is eight division steps (R61, R63, R64, R65). -/
theorem builtTable_eq_iterate (c : Conv) (p r : Byte) : builtTable c p r = (fun a => divStep c a p)^[8] r := by
  cases c <;> rfl

theorem builtTable_xor (c : Conv) (p a b : Byte) : builtTable c p (a ^^^ b) = builtTable c p a ^^^ builtTable c p b := by
  have hstep : Function.Semiconj₂ (fun a => divStep c a p) (· ^^^ ·) (· ^^^ ·) := fun a b => divStep_xor c a b p
  simp only [builtTable_eq_iterate]
  exact hstep.iterate 8 a b

/-- Settles O14: a step is linear in both conventions, and so is its eighth iterate. -/
theorem divisionIsLinear : Obligations.DivisionIsLinear := fun a b p =>
  have hN := builtTable_xor .normal p a b
  have hR := builtTable_xor .reflected p a b
  ⟨divStep_xor .normal a b p, divStep_xor .reflected a b p, hN, hR, hN, hR⟩

/-! ### Zero -/

theorem divStep_zero (c : Conv) (p : Byte) : divStep c 0x00#8 p = 0x00#8 := by cases c <;> rfl

theorem builtTable_zero (c : Conv) (p : Byte) : builtTable c p 0x00#8 = 0x00#8 := by
  rw [builtTable_eq_iterate]
  exact Function.iterate_fixed (divStep_zero c p) 8

/-- Without a polynomial a division step is its shift alone. -/
theorem stepN_zeroPoly (r : Byte) : stepN r 0x00#8 = r <<< 1 := by rw [stepN, BitVec.xor_zero, ite_self]

theorem stepR_zeroPoly (r : Byte) : stepR r 0x00#8 = r >>> 1 := by rw [stepR, BitVec.xor_zero, ite_self]

/-- Under P = 0x00 eight shifts push every bit out of the byte (R69). -/
theorem builtTable_zeroPoly (c : Conv) (r : Byte) : builtTable c 0x00#8 r = 0x00#8 := by
  cases c with
  | normal =>
    change divN r 0x00#8 = 0x00#8
    simp only [divN, stepN_zeroPoly, ← BitVec.shiftLeft_add]
    exact BitVec.shiftLeft_eq_zero (Nat.le_refl 8)
  | reflected =>
    change divR r 0x00#8 = 0x00#8
    simp only [divR, stepR_zeroPoly, ← BitVec.shiftRight_add]
    exact BitVec.ushiftRight_eq_zero (Nat.le_refl 8)

/-- Settles O13: 0x00 is a fixed point of every step, and eight steps without a polynomial shift every byte to 0x00. -/
theorem zeroIndexAndZeroPolynomialGiveZero : Obligations.ZeroIndexAndZeroPolynomialGiveZero :=
  ⟨fun p => ⟨builtTable_zero .normal p, builtTable_zero .reflected p, builtTable_zero .normal p,
      builtTable_zero .reflected p⟩,
    fun r => ⟨builtTable_zeroPoly .normal r, builtTable_zeroPoly .reflected r, builtTable_zeroPoly .normal r,
      builtTable_zeroPoly .reflected r⟩⟩

end Sys2Proof.Machine
end

section
/-! What the two builds install and respond (R66, R67, R71). -/

namespace Sys2Proof.Machine

theorem getElem?_entriesOf (t : Byte → Byte) (i : Byte) : (entriesOf t)[i.toNat]? = some (t i) := by
  rw [entriesOf, List.getElem?_map, List.getElem?_range i.isLt, Option.map_some, BitVec.ofNat_toNat, BitVec.setWidth_eq]

/-- Seven steps double 0x01 to 0x80 with no bit dropped; the eighth drops that bit and leaves P alone (R66). -/
theorem divN_one (p : Byte) : divN 0x01#8 p = p := by simp [divN, stepN, topBit]

/-- Seven steps halve 0x80 to 0x01 with no bit dropped; the eighth drops that bit and leaves P alone (R67). -/
theorem divR_top (p : Byte) : divR 0x80#8 p = p := by simp [divR, stepR, lowBit]

/-- Settles O15: the state a build ends in is read off field by field. -/
theorem buildTableNormalInstallsAndReturnsItsTable : Obligations.BuildTableNormalInstallsAndReturnsItsTable :=
  ⟨fun p s => ⟨_, _, exec_buildOf .normal p s, rfl, rfl, fun i => read_cellsOf _ i, rfl, rfl, rfl, rfl, rfl, rfl,
      entriesOf_length _, getElem?_entriesOf _⟩,
    fun p => pack_toNat p 0x02#8,
    fun p i => ⟨builtTable_zero .normal p, divN_one p, builtTable_zeroPoly .normal i⟩,
    by decide⟩

/-- Settles O16: the state a build ends in is read off field by field. -/
theorem buildTableReflectedInstallsAndReturnsItsTable : Obligations.BuildTableReflectedInstallsAndReturnsItsTable :=
  ⟨fun p s => ⟨_, _, exec_buildOf .reflected p s, rfl, rfl, fun i => read_cellsOf _ i, rfl, rfl, rfl, rfl, rfl, rfl,
      entriesOf_length _, getElem?_entriesOf _⟩,
    fun p => pack_toNat p 0x03#8,
    fun p i => ⟨builtTable_zero .reflected p, divR_top p, builtTable_zeroPoly .reflected i⟩,
    by decide⟩

/-- Settles O17: neither the slot a build installs nor its response depends on the state before it. -/
theorem buildsAreFunctionsOfThePolynomial : Obligations.BuildsAreFunctionsOfThePolynomial := fun p s t =>
  ⟨_, _, _, ⟨exec_buildOf .normal p s, exec_buildOf .normal p t, rfl, rfl, rfl⟩,
    _, _, _, exec_buildOf .reflected p s, exec_buildOf .reflected p t, rfl, rfl, rfl⟩

end Sys2Proof.Machine
end

section
/-! The laws of the bitwise CRC functions (R76 to R80). Both functions are the table-driven loop on the table of their
convention, over the message in the order they consume its bytes; so a law is proved once, for `crcTN` over a table, and read
off for both. -/

namespace Sys2Proof.Machine

/-! ### The loop over a table -/

theorem crcBN_eq_crcTN (m : List Byte) (p : Byte) : crcBN m p = crcTN m (builtTable .normal p) := rfl

theorem crcBR_eq_crcTN (m : List Byte) (p : Byte) : crcBR m p = crcTN m.reverse (builtTable .reflected p) := rfl

theorem crcTN_append (a b : List Byte) (t : Byte → Byte) :
    crcTN (a ++ b) t = b.foldl (fun x y => t (x ^^^ y)) (crcTN a t) := List.foldl_append

theorem crcTN_concat (m : List Byte) (b : Byte) (t : Byte → Byte) : crcTN (m ++ [b]) t = t (crcTN m t ^^^ b) :=
  crcTN_append m [b] t

/-- From ACC = 0x00 the first byte consumed is the index of the first lookup. -/
theorem crcTN_cons (b : Byte) (m : List Byte) (t : Byte → Byte) :
    crcTN (b :: m) t = m.foldl (fun x y => t (x ^^^ y)) (t b) := by
  rw [crcTN, List.foldl_cons, BitVec.zero_xor]

theorem crcTN_singleton (b : Byte) (t : Byte → Byte) : crcTN [b] t = t b := crcTN_cons b [] t

/-- Consuming ACC itself leaves index 0x00. -/
theorem crcTN_residue {t : Byte → Byte} (ht : t 0x00#8 = 0x00#8) (m : List Byte) :
    crcTN (m ++ [crcTN m t]) t = 0x00#8 := by
  rw [crcTN_concat, BitVec.xor_self, ht]

theorem crcTN_zero_cons {t : Byte → Byte} (ht : t 0x00#8 = 0x00#8) (m : List Byte) :
    crcTN (0x00#8 :: m) t = crcTN m t := by
  rw [crcTN_cons, ht, crcTN]

theorem crcTN_replicate_zero {t : Byte → Byte} (ht : t 0x00#8 = 0x00#8) (n : Nat) :
    crcTN (List.replicate n 0x00#8) t = 0x00#8 := by
  induction n with
  | zero => rfl
  | succ n ih => rw [List.replicate_succ, crcTN_zero_cons ht, ih]

theorem crcTN_of_zero_table {t : Byte → Byte} (ht : ∀ i, t i = 0x00#8) (m : List Byte) : crcTN m t = 0x00#8 := by
  cases m using List.reverseRecOn with
  | nil => rfl
  | append_singleton m b => rw [crcTN_concat, ht]

/-! ### The bitwise functions -/

theorem crcBN_singleton (p b : Byte) : crcBN [b] p = buildN p b := crcTN_singleton b (buildN p)

theorem crcBR_singleton (p b : Byte) : crcBR [b] p = buildR p b := crcTN_singleton b (buildR p)

theorem crcBN_residue (m : List Byte) (p : Byte) : crcBN (m ++ [crcBN m p]) p = 0x00#8 :=
  crcTN_residue (builtTable_zero .normal p) m

/-- The front byte is the one the reflected engine consumes last (R79). -/
theorem crcBR_residue (m : List Byte) (p : Byte) : crcBR (crcBR m p :: m) p = 0x00#8 := by
  rw [crcBR_eq_crcTN, List.reverse_cons]
  exact crcTN_residue (builtTable_zero .reflected p) m.reverse

theorem crcBN_zeroPoly (m : List Byte) : crcBN m 0x00#8 = 0x00#8 := crcTN_of_zero_table (builtTable_zeroPoly .normal) m

theorem crcBR_zeroPoly (m : List Byte) : crcBR m 0x00#8 = 0x00#8 :=
  crcTN_of_zero_table (builtTable_zeroPoly .reflected) m.reverse

theorem crcBN_zero_cons (m : List Byte) (p : Byte) : crcBN (0x00#8 :: m) p = crcBN m p :=
  crcTN_zero_cons (builtTable_zero .normal p) m

/-- The last byte is the one the reflected engine consumes first (R80). -/
theorem crcBR_concat_zero (m : List Byte) (p : Byte) : crcBR (m ++ [0x00#8]) p = crcBR m p := by
  rw [crcBR_eq_crcTN, List.reverse_concat]
  exact crcTN_zero_cons (builtTable_zero .reflected p) m.reverse

theorem crcBR_replicate_zero (n : Nat) (p : Byte) : crcBR (List.replicate n 0x00#8) p = 0x00#8 := by
  rw [crcBR_eq_crcTN, List.reverse_replicate]
  exact crcTN_replicate_zero (builtTable_zero .reflected p) n

/-- Settles O25: ACC XORed with the check byte is index 0x00, whose entry is 0x00 in every built table. -/
theorem residueIsZero : Obligations.ResidueIsZero := fun m p => ⟨crcBN_residue m p, crcBR_residue m p⟩

/-- Settles O26: the table of P = 0x00 is zero throughout; entry 0 is 0x00 in every built table, so a zero byte consumed at
ACC = 0x00 leaves it so. -/
theorem zeroBytesAndZeroPolynomialLaws : Obligations.ZeroBytesAndZeroPolynomialLaws := fun m p n =>
  ⟨crcBN_zeroPoly m, crcBR_zeroPoly m, crcBN_zero_cons m p, crcBR_concat_zero m p,
    crcTN_replicate_zero (builtTable_zero .normal p) n, crcBR_replicate_zero n p⟩

/-- Settles O24: a loop over a concatenation is the second loop from where the first one ends; reversing the message swaps
its parts. -/
theorem crcOfAConcatenationCarriesTheAccumulator : Obligations.CrcOfAConcatenationCarriesTheAccumulator := by
  intro a b p
  refine ⟨crcTN_append a b (builtTable .normal p), ?_⟩
  rw [crcBR_eq_crcTN, List.reverse_append]
  exact crcTN_append b.reverse a.reverse (builtTable .reflected p)

end Sys2Proof.Machine
end

section
/-! What the CRC commands answer: the bitwise ones (R74, R75), every one above the length bound, and a table command on an
empty message (R88). -/

namespace Sys2Proof.Machine

theorem exec_of_checkOf_eq_some {i : Instr} {s : State} {st : Status} (h : checkOf i s = some st) :
    exec i s = .next (respond st .none s) := by
  rw [exec_eq_perform, h, perform_some, raise_eq]

/-- A CRC command whose message is above the bound answers LENGTH_ERROR, whatever the slots hold (R74, R75, R94). -/
theorem exec_of_lengthTooLong {i : Instr} (hi : isCrcCommand i = true) {s : State} (hl : LengthTooLong s) :
    ∃ t, exec i s = .next t ∧ RespondedOnly s .lengthError .none t := by
  have hlen := (lengthExceeded_iff s).2 hl
  have hcheck : checkOf i s = some .lengthError := by
    cases i with
    | buildTableNormal p => cases hi
    | buildTableReflected p => cases hi
    | crcBitwiseNormal p => rw [checkOf, checkLength_eq, if_pos hlen]
    | crcBitwiseReflected p => rw [checkOf, checkLength_eq, if_pos hlen]
    | crcTableNormal => rw [checkOf, checkTable_eq, if_pos hlen]
    | crcTableReflected => rw [checkOf, checkTable_eq, if_pos hlen]
  exact ⟨_, exec_of_checkOf_eq_some hcheck, rfl⟩

theorem exec_crcBitwiseNormal_of_lengthAccepted (p : Byte) {s : State} (hl : LengthAccepted s) :
    ∃ t, exec (.crcBitwiseNormal p) s = .next t ∧ RespondedOnly s .ok (.crc (crcBN s.msg p)) t :=
  ⟨_, (exec_crcBitwiseNormal p s).trans (perform_bitwise .normal p s ((lengthExceeded_eq_false_iff s).2 hl)), rfl⟩

theorem exec_crcBitwiseReflected_of_lengthAccepted (p : Byte) {s : State} (hl : LengthAccepted s) :
    ∃ t, exec (.crcBitwiseReflected p) s = .next t ∧ RespondedOnly s .ok (.crc (crcBR s.msg p)) t :=
  ⟨_, (exec_crcBitwiseReflected p s).trans (perform_bitwise .reflected p s ((lengthExceeded_eq_false_iff s).2 hl)), rfl⟩

theorem lengthAccepted_of_msg_nil {s : State} (h : s.msg = []) : LengthAccepted s := fun n _ => by
  rw [h]
  exact Nat.zero_le n

/-- An empty message makes no lookup, so the entries of the slot do not matter (R88). -/
theorem exec_lookOf_of_msg_nil {c : Conv} {s : State} (hm : s.msg = []) (hv : (s.slot c).valid = true) :
    ∃ t, exec (lookOf c) s = .next t ∧ RespondedOnly s .ok (.crc 0x00#8) t := by
  have hcheck : checkOf (lookOf c) s = none :=
    (checkOf_lookOf c s).trans (checkTable_of_lengthAccepted (lengthAccepted_of_msg_nil hm) hv)
  have hops : opsOf (lookOf c) s.msg.length = [] := by rw [hm]; cases c <;> rfl
  have hstart : startOf (lookOf c) s = startCrc c 0x00#8 s := by cases c <;> rfl
  refine ⟨_, ?_, rfl⟩
  rw [exec_eq_perform, hcheck, hops, perform_none_ok (u := startCrc c 0x00#8 s) (by rw [hstart, runOps]), startCrc_eq,
    complete_crc]
  rfl

/-- Settles O23: one byte makes one lookup from ACC = 0x00, an empty message none. -/
theorem emptyAndOneByteMessages : Obligations.EmptyAndOneByteMessages :=
  ⟨fun _ => ⟨rfl, rfl⟩,
    fun p b => ⟨crcBN_singleton p b, crcBN_singleton p b, crcBR_singleton p b, crcBR_singleton p b⟩,
    fun _ => ⟨rfl, rfl⟩,
    fun _ hm => ⟨exec_lookOf_of_msg_nil (c := .normal) hm, exec_lookOf_of_msg_nil (c := .reflected) hm⟩⟩

/-- Settles O19: the loop of the command computes crcBN within the bound, whose laws are the corner cases; the accumulator
values are evaluated. -/
theorem crcBitwiseNormalRespondsItsCrc : Obligations.CrcBitwiseNormalRespondsItsCrc :=
  ⟨fun p _ => exec_crcBitwiseNormal_of_lengthAccepted p, fun _ _ => exec_of_lengthTooLong rfl,
    fun p => pack_toNat p 0x04#8,
    fun m p b => ⟨rfl, crcBN_zeroPoly m, crcBN_zero_cons m p, crcBN_singleton p b, crcBN_residue m p⟩,
    by decide⟩

/-- Settles O20: the loop of the command computes crcBR within the bound, whose laws are the corner cases; the accumulator
values are evaluated. -/
theorem crcBitwiseReflectedRespondsItsCrc : Obligations.CrcBitwiseReflectedRespondsItsCrc :=
  ⟨fun p _ => exec_crcBitwiseReflected_of_lengthAccepted p, fun _ _ => exec_of_lengthTooLong rfl,
    fun p => pack_toNat p 0x05#8,
    fun m p b => ⟨rfl, crcBR_zeroPoly m, crcBR_concat_zero m p, crcBR_singleton p b⟩,
    by decide +kernel⟩

end Sys2Proof.Machine
end

section
/-! The table commands (R83, R84): what they answer, that they do as the bitwise commands where the slot holds the table of
the polynomial (R85 to R87), and that they do not depend on POLY (R89). -/

namespace Sys2Proof.Machine

/-! ### The pure engines -/

theorem crcTN_buildN (m : List Byte) (p : Byte) : crcTN m (buildN p) = crcBN m p := (crcBN_eq_crcTN m p).symm

theorem crcTR_buildR (m : List Byte) (p : Byte) : crcTR m (buildR p) = crcBR m p := (crcBR_eq_crcTN m p).symm

/-- Settles O27: an entry of the table is the byte division of its index, so the loops are the same. -/
theorem pureEnginesAgree : Obligations.PureEnginesAgree := fun m p => ⟨(crcTN_buildN m p).symm, (crcTR_buildR m p).symm⟩

/-! ### The answers of a table command -/

/-- A table command on a slot that is not valid answers NO_TABLE, whatever the message within the bound (R83, R84). -/
theorem exec_lookOf_of_not_valid (c : Conv) {s : State} (hl : LengthAccepted s) (hv : (s.slot c).valid = false) :
    ∃ u, exec (lookOf c) s = .next u ∧ RespondedOnly s .noTable .none u :=
  ⟨_, exec_lookOf_noTable ((lengthExceeded_eq_false_iff s).2 hl) hv, rfl⟩

theorem exec_crcTableNormal_of_slotReads {s : State} {t : Byte → Byte} (hl : LengthAccepted s)
    (hv : s.slotN.valid = true) (ht : SlotReads s .normal t) :
    ∃ u, exec .crcTableNormal s = .next u ∧ RespondedOnly s .ok (.crc (crcTN s.msg t)) u :=
  ⟨_, (exec_crcTableNormal s).trans (perform_tableNormal s t ((lengthExceeded_eq_false_iff s).2 hl) hv ht), rfl⟩

theorem exec_crcTableReflected_of_slotReads {s : State} {t : Byte → Byte} (hl : LengthAccepted s)
    (hv : s.slotR.valid = true) (ht : SlotReads s .reflected t) :
    ∃ u, exec .crcTableReflected s = .next u ∧ RespondedOnly s .ok (.crc (crcTR s.msg t)) u :=
  ⟨_, (exec_crcTableReflected s).trans (perform_tableReflected s t ((lengthExceeded_eq_false_iff s).2 hl) hv ht), rfl⟩

/-- Settles O21: the lookups of the command compute crcTN over the table the slot reads as; a failed check responds before
any of them. The lookups of the example are evaluated. -/
theorem crcTableNormalRespondsItsCrc : Obligations.CrcTableNormalRespondsItsCrc :=
  ⟨fun _ _ => exec_crcTableNormal_of_slotReads, fun _ => exec_lookOf_of_not_valid .normal,
    fun _ => exec_of_lengthTooLong rfl, rfl, fun m p _ => ⟨rfl, crcTN_buildN m p⟩, by decide +kernel⟩

/-- Settles O22: the lookups of the command compute crcTR over the table the slot reads as; a failed check responds before
any of them. The lookups of the example are evaluated. -/
theorem crcTableReflectedRespondsItsCrc : Obligations.CrcTableReflectedRespondsItsCrc :=
  ⟨fun _ _ => exec_crcTableReflected_of_slotReads, fun _ => exec_lookOf_of_not_valid .reflected,
    fun _ => exec_of_lengthTooLong rfl, rfl, fun m p _ => ⟨rfl, crcTR_buildR m p⟩, by decide +kernel⟩

/-! ### The table and the bitwise command of a convention -/

/-- The bitwise command of a convention (R74, R75). -/
def bitwiseOf (c : Conv) (p : Byte) : Instr :=
  match c with
  | .normal => .crcBitwiseNormal p
  | .reflected => .crcBitwiseReflected p

theorem checkOf_bitwiseOf (c : Conv) (p : Byte) (s : State) : checkOf (bitwiseOf c p) s = checkLength s := by
  cases c <;> rfl

/-- On a valid slot the two commands make the same check (R94). -/
theorem checkTable_of_valid {c : Conv} {s : State} (hv : (s.slot c).valid = true) : checkTable c s = checkLength s := by
  rw [checkTable_eq, checkLength_eq, hv, if_pos rfl]

/-- Where the slot holds the table of P, the table command does as the bitwise command under P: they fail the same check, or
compute the same CRC (R85 to R87). -/
theorem exec_lookOf_eq_exec_bitwiseOf {c : Conv} {p : Byte} {s : State} (hv : (s.slot c).valid = true)
    (ht : SlotReads s c (builtTable c p)) : exec (lookOf c) s = exec (bitwiseOf c p) s := by
  cases hcheck : checkLength s with
  | some st =>
    have hlook : checkOf (lookOf c) s = some st := by rw [checkOf_lookOf, checkTable_of_valid hv, hcheck]
    have hbit : checkOf (bitwiseOf c p) s = some st := by rw [checkOf_bitwiseOf, hcheck]
    rw [exec_of_checkOf_eq_some hlook, exec_of_checkOf_eq_some hbit]
  | none =>
    have hl : lengthExceeded s = false := lengthExceeded_of_checkLength hcheck
    cases c with
    | normal => exact (perform_tableNormal s _ hl hv ht).trans (perform_bitwise .normal p s hl).symm
    | reflected => exact (perform_tableReflected s _ hl hv ht).trans (perform_bitwise .reflected p s hl).symm

/-- A slot that meets the invariant and holds P is the slot a build under P leaves. -/
theorem SlotHolds.exec_lookOf_eq {c : Conv} {p : Byte} {s : State} (h : SlotHolds c (s.slot c))
    (hv : (s.slot c).valid = true) (hp : (s.slot c).poly = some p) : exec (lookOf c) s = exec (bitwiseOf c p) s := by
  obtain ⟨q, hq, ht⟩ := h.reads hv
  obtain rfl : q = p := Option.some.inj (hq.symm.trans hp)
  exact exec_lookOf_eq_exec_bitwiseOf hv ht

/-- The commands agree as long as the slot is the one a build left, whatever else has happened since. -/
theorem exec_lookOf_of_built {c : Conv} {p : Byte} {s t u : State} (hb : exec (buildOf c p) s = .next t)
    (hu : u.slot c = t.slot c) : exec (lookOf c) u = exec (bitwiseOf c p) u := by
  have hslot : u.slot c = ⟨true, some p, cellsOf (builtTable c p)⟩ := by
    rw [exec_buildOf] at hb
    cases hb
    rw [hu, respond_slot, setSlot_slot]
  have hholds : SlotHolds c (u.slot c) := hslot ▸ slotHolds_built c p
  exact hholds.exec_lookOf_eq (by rw [hslot]) (by rw [hslot])

/-- Settles O28: a slot that meets the invariant, and so the one a build leaves, holds the table of its polynomial. The two
conventions are evaluated on one byte. -/
theorem tableAndBitwiseCommandsAgree : Obligations.TableAndBitwiseCommandsAgree :=
  ⟨fun _ _ ⟨hN, hR⟩ => ⟨SlotHolds.exec_lookOf_eq (c := .normal) hN, SlotHolds.exec_lookOf_eq (c := .reflected) hR⟩,
    fun _ _ _ _ => ⟨exec_lookOf_of_built (c := .normal), exec_lookOf_of_built (c := .reflected)⟩, by decide⟩

/-! ### POLY -/

/-- The state with another POLY in a slot (R24). -/
def State.withPoly (s : State) (c : Conv) (q : Option Byte) : State := s.setSlot c { s.slot c with poly := q }

@[simp] theorem withPoly_cfg (s : State) (c : Conv) (q : Option Byte) : (s.withPoly c q).cfg = s.cfg := setSlot_cfg ..

@[simp] theorem withPoly_msg (s : State) (c : Conv) (q : Option Byte) : (s.withPoly c q).msg = s.msg := setSlot_msg ..

theorem withPoly_slot (s : State) (c : Conv) (q : Option Byte) :
    (s.withPoly c q).slot c = { s.slot c with poly := q } := setSlot_slot ..

theorem respond_withPoly (st : Status) (v : Value) (s : State) (c : Conv) (q : Option Byte) :
    respond st v (s.withPoly c q) = (respond st v s).withPoly c q := by
  cases c <;> rfl

theorem slotReadBy_lookOf (c : Conv) : slotReadBy (lookOf c) = some c := by cases c <;> rfl

theorem slotWrittenBy_lookOf (c : Conv) : slotWrittenBy (lookOf c) = none := by cases c <;> rfl

/-- A table command reads VALID and TABLE of its slot alone (R105), so it answers alike with any POLY there (R89). -/
theorem exec_lookOf_withPoly {c : Conv} {s t : State} (q : Option Byte) (h : exec (lookOf c) s = .next t) :
    exec (lookOf c) (s.withPoly c q) = .next (t.withPoly c q) := by
  have hread : ∀ d, slotReadBy (lookOf c) = some d → (s.slot d).valid = ((s.withPoly c q).slot d).valid ∧
      (s.slot d).table = ((s.withPoly c q).slot d).table := by
    intro d hd
    obtain rfl : c = d := Option.some.inj ((slotReadBy_lookOf c).symm.trans hd)
    rw [withPoly_slot]
    exact ⟨rfl, rfl⟩
  rcases exec_congr (withPoly_cfg s c q).symm (withPoly_msg s c q).symm hread h with
    ⟨st, v, -, rfl, hexec⟩ | ⟨v, d, sl, hw, -, -⟩
  · rw [hexec, respond_withPoly]
  · rw [slotWrittenBy_lookOf] at hw
    cases hw

/-- Settles O29: what a table command reads of its slot is the same with any POLY, and it writes no slot. -/
theorem tableCommandsDoNotReadPoly : Obligations.TableCommandsDoNotReadPoly := fun _ _ q =>
  ⟨exec_lookOf_withPoly (c := .normal) q, exec_lookOf_withPoly (c := .reflected) q⟩

end Sys2Proof.Machine
end

section
/-! The status of a response is the one its command's check finds, and a failed command does nothing but respond (R90 to R92,
R94). -/

namespace Sys2Proof.Machine

/-! ### The check of a command -/

/-- The priority of R94: LENGTH_ERROR for a CRC command above the bound, before NO_TABLE for a slot that is not valid. -/
theorem checkOf_eq (i : Instr) (s : State) :
    checkOf i s = if isCrcCommand i && lengthExceeded s then some .lengthError
      else (slotReadBy i).bind fun c => if (s.slot c).valid then none else some .noTable := by
  cases i <;> simp [checkOf, checkTable_eq, checkLength_eq, isCrcCommand, slotReadBy]

theorem checkOf_of_lengthTooLong {i : Instr} {s : State} (hi : isCrcCommand i = true) (hl : LengthTooLong s) :
    checkOf i s = some .lengthError := by
  rw [checkOf_eq, hi, (lengthExceeded_iff s).2 hl, Bool.and_self, if_pos rfl]

/-- Within the bound the check of a command is that of its slot. -/
theorem checkOf_of_lengthAccepted (i : Instr) {s : State} (hl : LengthAccepted s) :
    checkOf i s = (slotReadBy i).bind fun c => if (s.slot c).valid then none else some .noTable := by
  rw [checkOf_eq, (lengthExceeded_eq_false_iff s).2 hl, Bool.and_false, if_neg Bool.false_ne_true]

theorem checkOf_of_not_valid {i : Instr} {s : State} {c : Conv} (hl : LengthAccepted s) (hc : slotReadBy i = some c)
    (hv : (s.slot c).valid = false) : checkOf i s = some .noTable := by
  rw [checkOf_of_lengthAccepted i hl, hc, Option.bind_some, hv, if_neg Bool.false_ne_true]

theorem checkOf_of_valid {i : Instr} {s : State} (hl : LengthAccepted s)
    (hv : ∀ c, slotReadBy i = some c → (s.slot c).valid = true) : checkOf i s = none := by
  rw [checkOf_of_lengthAccepted i hl, Option.bind_eq_none_iff]
  exact fun c hc => if_pos (hv c hc)

/-- A build makes no check (R47). -/
theorem checkOf_of_build {i : Instr} (s : State) (hi : isCrcCommand i = false) : checkOf i s = none := by
  cases i <;> cases hi <;> rfl

/-- Without a bound no message is too long (R92). -/
theorem checkOf_ne_lengthError {i : Instr} {s : State} (h : s.cfg.msgLenMax = none) :
    checkOf i s ≠ some .lengthError := by
  have hl : LengthAccepted s := fun n hn => by rw [h] at hn; cases hn
  rw [checkOf_of_lengthAccepted i hl]
  cases slotReadBy i with
  | none => exact nofun
  | some c => rw [Option.bind_some]; split <;> exact nofun

/-! ### The response of a command -/

/-- Settles O32, by the cases of a command: a failed check, a byte, a table. -/
theorem everyCommandSendsOneResponseOfItsForm : Obligations.EveryCommandSendsOneResponseOfItsForm := by
  intro i s t h
  rcases exec_next h with ⟨st, hst, -, rfl⟩ | ⟨-, hi, b, rfl⟩ | ⟨c, p, -, hi, rfl⟩
  · exact ⟨⟨st, .none⟩, rfl, fun hok => absurd hok hst, fun hok => absurd hok hst, fun _ => rfl⟩
  · exact ⟨⟨.ok, .crc b⟩, rfl, fun _ _ => ⟨b, rfl⟩, fun _ hi' => absurd (hi.symm.trans hi') nofun,
      fun hne => absurd rfl hne⟩
  · exact ⟨⟨.ok, .table (entriesOf (builtTable c p))⟩, by rw [respond_outbox, setSlot_outbox],
      fun _ hi' => absurd (hi.symm.trans hi') nofun, fun _ _ => ⟨_, rfl, entriesOf_length _⟩, fun hne => absurd rfl hne⟩

/-- The response of a command has the status its check finds, or OK where it finds none (R91). -/
theorem status_of_exec {i : Instr} {s t : State} {r : Response} (h : exec i s = .next t)
    (hout : t.outbox = s.outbox ++ [r]) : r.status = (checkOf i s).getD .ok := by
  rcases exec_next h with ⟨st, -, hc, rfl⟩ | ⟨hc, -, b, rfl⟩ | ⟨c, p, -, hi, rfl⟩
  · rw [respond_outbox] at hout
    rw [hc, ← List.singleton_inj.1 (List.append_cancel_left hout), Option.getD_some]
  · rw [respond_outbox] at hout
    rw [hc, ← List.singleton_inj.1 (List.append_cancel_left hout), Option.getD_none]
  · rw [respond_outbox, setSlot_outbox] at hout
    rw [checkOf_of_build s hi, ← List.singleton_inj.1 (List.append_cancel_left hout), Option.getD_none]

/-- A command that responds another status than OK failed its check with that status. -/
theorem checkOf_of_status_ne_ok {i : Instr} {s t : State} {r : Response} (h : exec i s = .next t)
    (hout : t.outbox = s.outbox ++ [r]) (hr : r.status ≠ .ok) : checkOf i s = some r.status := by
  have hstatus := status_of_exec h hout
  cases hc : checkOf i s with
  | none => rw [hc] at hstatus; exact absurd hstatus hr
  | some st => rw [hstatus, hc, Option.getD_some]

theorem runWord_of_illegal {w : Cmd} (hw : isLegal w = false) (s : State) :
    runWord w s = .next (respond .illegalCommand .none s) := by
  obtain ⟨e, hd⟩ := isLegal_eq_false_iff.1 hw
  rw [runWord, hd, raise_eq]

/-- Settles O30: the check that failed looks at the length of the message and at no byte of it, and the decoder at no
message at all. -/
theorem failedCommandsWriteAndReadNothing : Obligations.FailedCommandsWriteAndReadNothing := by
  refine ⟨fun i s t st v h hst hout => ?_, fun w s hw =>
    ⟨respond .illegalCommand .none s, rfl, fun m => runWord_of_illegal hw { s with msg := m }⟩⟩
  have hcheck : checkOf i s = some st := checkOf_of_status_ne_ok h hout hst
  obtain rfl : respond st .none s = t := Host.Outcome.next.inj ((exec_of_checkOf_eq_some hcheck).symm.trans h)
  have hvalue : Response.mk st .none = ⟨st, v⟩ := List.singleton_inj.1 (List.append_cancel_left hout)
  refine ⟨(Response.mk.inj hvalue).2.symm, rfl, fun m hm => ?_⟩
  have hcheck' : checkOf i { s with msg := m } = some st :=
    (checkOf_congr (s := { s with msg := m }) (t := s) rfl hm fun c _ => by cases c <;> rfl).trans hcheck
  exact exec_of_checkOf_eq_some hcheck'

/-- Settles O31: an illegal word answers before any command; the response of a command has the status of its check, and the
check follows the priority of R94. -/
theorem statusesFollowTheirCausesInPriority : Obligations.StatusesFollowTheirCausesInPriority := by
  refine ⟨⟨rfl, rfl, rfl, rfl⟩, fun s w m rest hs he => ?_⟩
  cases hd : decodeWord w with
  | error e =>
    have hw : isLegal w = false := isLegal_eq_false_iff.2 ⟨e, hd⟩
    exact ⟨_, ⟨.illegalCommand, .none⟩, step_command_of_illegal he hw, rfl, fun _ => rfl, nofun, fun _ => rfl,
      fun _ => nofun⟩
  | ok i =>
    obtain ⟨t, ht⟩ := exec_answers (s := issue m rest s) hs i
    obtain ⟨r, hout, hcrc, htable, hnone⟩ := everyCommandSendsOneResponseOfItsForm i _ t ht
    have hstatus {o : Option Status} (h : checkOf i (issue m rest s) = o) : r.status = o.getD .ok :=
      h ▸ status_of_exec ht hout
    refine ⟨t, r, (step_command_of_decodeWord he hd).trans ht, hout, fun hw => ?_, fun j hj => ?_, hnone,
      fun hu hr => ?_⟩
    · rw [isLegal_iff.2 ⟨i, hd⟩] at hw
      cases hw
    · cases hj
      exact ⟨fun hi hl => hstatus (checkOf_of_lengthTooLong hi hl),
        fun _ hl c hc hv => hstatus (checkOf_of_not_valid hl hc ((issue_slot m rest s c).symm ▸ hv)),
        fun _ hl hv => hstatus (checkOf_of_valid hl fun c hc => (issue_slot m rest s c).symm ▸ hv c hc),
        fun hi => hstatus (checkOf_of_build _ hi), hcrc, htable⟩
    · have hcheck := checkOf_of_status_ne_ok ht hout (by rw [hr]; exact nofun)
      rw [hr] at hcheck
      exact checkOf_ne_lengthError (s := issue m rest s) hu hcheck

end Sys2Proof.Machine
end

section
/-! What the response and the next slots depend on (R105). -/

namespace Sys2Proof.Machine

/-- A command that only responds is a CRC command, since a build never fails. -/
theorem isCrcCommand_of_status_ne_ok {i : Instr} {s : State} {st : Status} {v : Value}
    (h : exec i s = .next (respond st v s)) (hst : st ≠ .ok) : isCrcCommand i = true := by
  have hcheck := checkOf_of_status_ne_ok (r := ⟨st, v⟩) h rfl hst
  by_contra hi
  rw [checkOf_of_build s (Bool.eq_false_of_not_eq_true hi)] at hcheck
  cases hcheck

/-- Two states that agree on what a command reads: the responses and the slots written agree, and no other slot changes. -/
theorem exec_depends_on_slotReadBy {i : Instr} {s t s' : State} (hc : s.cfg = t.cfg) (hm : s.msg = t.msg)
    (hread : ∀ c, slotReadBy i = some c → (s.slot c).valid = (t.slot c).valid ∧ (s.slot c).table = (t.slot c).table)
    (h : exec i s = .next s') :
    ∃ (t' : State) (r : Response), exec i t = .next t' ∧ s'.outbox = s.outbox ++ [r] ∧ t'.outbox = t.outbox ++ [r] ∧
      (∀ c, slotWrittenBy i = some c → s'.slot c = t'.slot c) ∧
      (∀ c, slotWrittenBy i ≠ some c → s'.slot c = s.slot c ∧ t'.slot c = t.slot c) := by
  rcases exec_congr hc hm hread h with ⟨st, v, hi, rfl, ht⟩ | ⟨v, d, sl, hd, rfl, ht⟩
  · have hcrc : isCrcCommand i = true := hi.elim id (isCrcCommand_of_status_ne_ok h)
    refine ⟨_, ⟨st, v⟩, ht, rfl, rfl, fun c hw => ?_, fun c _ => ⟨respond_slot st v s c, respond_slot st v t c⟩⟩
    rw [slotWrittenBy_of_isCrcCommand hcrc] at hw
    cases hw
  · refine ⟨_, ⟨.ok, v⟩, ht, by rw [respond_outbox, setSlot_outbox], by rw [respond_outbox, setSlot_outbox],
      fun c hw => ?_, fun c hw => ?_⟩
    · obtain rfl : d = c := Option.some.inj (hd.symm.trans hw)
      rw [respond_slot, respond_slot, setSlot_slot, setSlot_slot]
    · have hne : c ≠ d := fun e => hw (e ▸ hd)
      rw [respond_slot, respond_slot, setSlot_slot_other s d sl c hne, setSlot_slot_other t d sl c hne]
      exact ⟨rfl, rfl⟩

/-- Where the slots agree before a command, they agree after it. -/
theorem exec_depends_on_slots {i : Instr} {s t s' : State} (hc : s.cfg = t.cfg) (hm : s.msg = t.msg)
    (hslot : ∀ c, s.slot c = t.slot c) (h : exec i s = .next s') :
    ∃ (t' : State) (r : Response), exec i t = .next t' ∧ s'.outbox = s.outbox ++ [r] ∧ t'.outbox = t.outbox ++ [r] ∧
      ∀ c, s'.slot c = t'.slot c := by
  obtain ⟨t', r, ht, hs', ht', hwritten, hkept⟩ :=
    exec_depends_on_slotReadBy hc hm (fun c _ => by rw [hslot c]; exact ⟨rfl, rfl⟩) h
  refine ⟨t', r, ht, hs', ht', fun c => ?_⟩
  by_cases hw : slotWrittenBy i = some c
  · exact hwritten c hw
  · obtain ⟨hs, ht⟩ := hkept c hw
    rw [hs, ht, hslot c]

/-- Settles O47: a step gives the command its message and the slots as they are; an illegal word reads neither. -/
theorem responsesDependOnlyOnTheirInputs : Obligations.ResponsesDependOnlyOnTheirInputs := by
  refine ⟨fun s t s' w m a b hc hN hR hs ht h => ?_, fun i s t s' => exec_depends_on_slotReadBy⟩
  cases hd : decodeWord w with
  | ok i =>
    have hslot : ∀ c, (issue m a s).slot c = (issue m b t).slot c := fun c => by cases c <;> assumption
    rw [step_command_of_decodeWord hs hd] at h
    obtain ⟨t', r, hexec, hs', ht', hslots⟩ :=
      exec_depends_on_slots (s := issue m a s) (t := issue m b t) hc rfl hslot h
    exact ⟨t', r, (step_command_of_decodeWord ht hd).trans hexec, hs', ht', hslots .normal, hslots .reflected⟩
  | error e =>
    have hw : isLegal w = false := isLegal_eq_false_iff.2 ⟨e, hd⟩
    rw [step_command_of_illegal hs hw] at h
    cases h
    exact ⟨_, ⟨.illegalCommand, .none⟩, step_command_of_illegal ht hw, rfl, rfl, hN, hR⟩

end Sys2Proof.Machine
end

section
/-! From an invariant state every step answers, and so does every run (R93, R97, R119). -/

namespace Sys2Proof.Machine

theorem step_idle {s : State} (h : s.inbox = []) : step s = .next s := by simp [step, h]

/-- Settles O8. -/
theorem idleCoreKeepsItsState : Obligations.IdleCoreKeepsItsState := fun _ => step_idle

theorem step_reset {s : State} {rest : List HostEvent} (h : s.inbox = .reset :: rest) :
    step s = .next (takeReset { s with inbox := rest }) := by
  simp [step, h]

theorem step_resetDuring {s : State} {w : Cmd} {m : List Byte} {n : Nat} {rest : List HostEvent}
    (h : s.inbox = .resetDuring w m n :: rest) : step s = resetDuring w n (issue m rest s) := by
  simp [step, h]

/-- A run of micro-operations that meets no fault meets none in its first `n`. -/
theorem runOps_take_ok {ops : List MicroOp} {s t : State} (h : runOps ops s = .ok t) (n : Nat) :
    ∃ u, runOps (ops.take n) s = .ok u := by
  rw [← List.take_append_drop n ops, runOps_append] at h
  cases hu : runOps (ops.take n) s with
  | ok u => exact ⟨u, rfl⟩
  | error f => rw [hu] at h; cases h

/-- From the slot invariant a command gets as far as its reset, since it would complete without one (R108). -/
theorem inProgress_answers {s : State} (hs : SlotInvariant s) (w : Cmd) (n : Nat) :
    ∃ t, inProgress w n s = .ok t := by
  cases hd : decodeWord w with
  | error e => exact ⟨s, inProgress_of_illegal (isLegal_eq_false_iff.2 ⟨e, hd⟩) n s⟩
  | ok i =>
    cases hc : checkOf i s with
    | some st => exact ⟨s, inProgress_of_check hd hc n⟩
    | none =>
      obtain ⟨t, ht⟩ := exec_answers hs i
      rw [exec_eq_perform, hc] at ht
      rcases perform_next ht with ⟨st, hst, -⟩ | ⟨-, u, hu, -⟩
      · cases hst
      · rw [inProgress_of_running hd hc]
        exact runOps_take_ok hu n

/-- From the slot invariant a reset during a command leaves what a reset in its place leaves (R107, R108). -/
theorem resetDuring_eq {s : State} (hs : SlotInvariant s) (w : Cmd) (n : Nat) :
    resetDuring w n s = .next (takeReset s) := by
  obtain ⟨t, ht⟩ := inProgress_answers hs w n
  rw [resetDuring, ht, ← inProgress_takeReset ht]

/-- From the slot invariant every step answers: it idles, takes a command, or takes a reset. -/
theorem step_answers {s : State} (hs : SlotInvariant s) : ∃ t, step s = .next t := by
  cases he : s.inbox with
  | nil => exact ⟨s, step_idle he⟩
  | cons e rest =>
    cases e with
    | command w m =>
      obtain ⟨t, -, ht, -⟩ := step_command_answers hs he
      exact ⟨t, ht⟩
    | reset => exact ⟨_, step_reset he⟩
    | resetDuring w m n => exact ⟨_, (step_resetDuring he).trans (resetDuring_eq (s := issue m rest s) hs w n)⟩

/-- Settles O54, by induction on the number of steps: each answers, and the invariant holds after it. -/
theorem runsFromInvariantStatesNeverStop : Obligations.RunsFromInvariantStatesNeverStop := by
  intro s hi n
  induction n generalizing s with
  | zero => exact ⟨s, run_zero s⟩
  | succ n ih =>
    obtain ⟨t, ht⟩ := step_answers hi.slots
    obtain ⟨u, hu⟩ := ih t (step_keeps_invariant hi ht)
    exact ⟨u, (run_succ ht n).trans hu⟩

end Sys2Proof.Machine
end

section
/-! A reset between commands and a reset during one (R106 to R108). -/

namespace Sys2Proof.Machine

/-- With no valid slot a command fails its check if it looks a slot up, and only then (R83, R84, R94). -/
theorem checkOf_of_no_valid_slot (i : Instr) {s : State} (hl : LengthAccepted s) (hv : ∀ c, (s.slot c).valid = false) :
    checkOf i s = (slotReadBy i).map fun _ => .noTable := by
  cases hc : slotReadBy i with
  | none => exact checkOf_of_valid hl fun c hc' => absurd (hc.symm.trans hc') nofun
  | some c => exact checkOf_of_not_valid hl hc (hv c)

/-- Settles O10: the state after the reset meets the slot invariant, so the next command answers, and the status is the one
its check finds on two slots that are not valid. -/
theorem resetEventEmptiesTheStore : Obligations.ResetEventEmptiesTheStore := by
  intro s rest he
  refine ⟨_, step_reset he, rfl, rfl, rfl, rfl, fun i => ⟨read_nil i, read_nil i⟩, rfl, rfl, rfl, rfl, rfl,
    fun i m hl => ?_⟩
  obtain ⟨u, hu⟩ := exec_answers (s := { takeReset { s with inbox := rest } with msg := m })
    (takeReset_slotInvariant { s with inbox := rest }) i
  obtain ⟨r, hout, -⟩ := exec_response hu
  refine ⟨u, r, hu, hout, ?_⟩
  rw [status_of_exec hu hout, checkOf_of_no_valid_slot i hl fun c => by cases c <;> rfl]
  cases slotReadBy i <;> rfl

/-- Settles O11: a command cut short has changed its transient state alone, and a reset drops that. -/
theorem resetDuringACommandLeavesNoTrace : Obligations.ResetDuringACommandLeavesNoTrace :=
  fun s w m n rest hi he =>
    ⟨_, (step_resetDuring he).trans (resetDuring_eq (s := issue m rest s) hi.slots w n), rfl, rfl, rfl, rfl, rfl,
      step_reset rfl⟩

end Sys2Proof.Machine
end

section
/-! The operation counts of the loops (R118). -/

namespace Sys2Proof.Machine

/-- `d` division steps, `t` table reads, `e` table entries made and `b` message reads (R118). -/
def HasCounts (ops : List MicroOp) (d t e b : Nat) : Prop :=
  ops.countP MicroOp.isDivision = d ∧ ops.countP MicroOp.readsTable = t ∧
  ops.countP MicroOp.makesEntry = e ∧ ops.countP MicroOp.readsMessage = b

theorem countP_flatMap_of_const {α β : Type} {f : α → List β} {q : β → Bool} {c : Nat} (hf : ∀ a, (f a).countP q = c)
    (l : List α) : (l.flatMap f).countP q = l.length * c := by
  simp [List.countP_flatMap, Function.comp_def, hf]

/-- A loop whose rounds have the same counts has those of one round, once a round. -/
theorem hasCounts_flatMap {α : Type} {f : α → List MicroOp} {d t e b : Nat} (hf : ∀ a, HasCounts (f a) d t e b)
    (l : List α) : HasCounts (l.flatMap f) (l.length * d) (l.length * t) (l.length * e) (l.length * b) := by
  refine ⟨countP_flatMap_of_const (fun a => ?_) l, countP_flatMap_of_const (fun a => ?_) l,
    countP_flatMap_of_const (fun a => ?_) l, countP_flatMap_of_const (fun a => ?_) l⟩ <;>
  obtain ⟨hd, ht, he, hb⟩ := hf a <;> assumption

@[simp] theorem length_positions (c : Conv) (n : Nat) : (positions c n).length = n := by cases c <;> simp [positions]

theorem opsBuild_hasCounts : HasCounts opsBuild 2048 0 256 0 := by
  have h := hasCounts_flatMap (f := fun i => MicroOp.loadIndex i :: (divideByte ++ [.keep])) (d := 8) (t := 0) (e := 1)
    (b := 0) (fun _ => ⟨rfl, rfl, rfl, rfl⟩) (List.range 256)
  rwa [List.length_range] at h

theorem opsBitwise_hasCounts (c : Conv) (n : Nat) : HasCounts (opsBitwise (positions c n)) (8 * n) 0 0 n := by
  have h := hasCounts_flatMap (f := fun k => MicroOp.absorb k :: divideByte) (d := 8) (t := 0) (e := 0) (b := 1)
    (fun _ => ⟨rfl, rfl, rfl, rfl⟩) (positions c n)
  rwa [length_positions, Nat.mul_zero, Nat.mul_one, Nat.mul_comm] at h

theorem opsTableNormal_hasCounts (c : Conv) (n : Nat) : HasCounts (opsTableNormal (positions c n)) 0 n 0 n := by
  have h := hasCounts_flatMap (f := fun k => [MicroOp.lookupByte k]) (d := 0) (t := 1) (e := 0) (b := 1)
    (fun _ => ⟨rfl, rfl, rfl, rfl⟩) (positions c n)
  rwa [length_positions, Nat.mul_zero, Nat.mul_one, ← List.map_eq_flatMap] at h

theorem opsTableReflected_hasCounts (c : Conv) (n : Nat) : HasCounts (opsTableReflected (positions c n)) 0 n 0 n := by
  have h := hasCounts_flatMap (f := fun k => [MicroOp.absorb k, .lookup]) (d := 0) (t := 1) (e := 0) (b := 1)
    (fun _ => ⟨rfl, rfl, rfl, rfl⟩) (positions c n)
  rwa [length_positions, Nat.mul_zero, Nat.mul_one] at h

/-- Settles O41: each loop does its round once an index or once a byte. -/
theorem operationCountsAreThoseOfTheLoops : Obligations.OperationCountsAreThoseOfTheLoops := by
  refine ⟨fun p n i hi => ?_, fun p n i hi => ?_, fun n i hi => ?_⟩
  · rcases List.mem_pair.1 hi with rfl | rfl
    · exact opsBuild_hasCounts
    · exact opsBuild_hasCounts
  · rcases List.mem_pair.1 hi with rfl | rfl
    · exact opsBitwise_hasCounts .normal n
    · exact opsBitwise_hasCounts .reflected n
  · rcases List.mem_pair.1 hi with rfl | rfl
    · exact opsTableNormal_hasCounts .normal n
    · exact opsTableReflected_hasCounts .reflected n

end Sys2Proof.Machine
end

section
/-! A table command behind the last build of its convention (R87, R113, R114). -/

namespace Sys2Proof.Machine

theorem slotReads_of_slot_eq {s : State} {c : Conv} {v : Bool} {q : Option Byte} {t : Byte → Byte}
    (h : s.slot c = ⟨v, q, cellsOf t⟩) : SlotReads s c t :=
  fun i => by rw [h, read_cellsOf]

theorem exec_bitwiseOf (c : Conv) (p : Byte) {s : State} (hl : LengthAccepted s) :
    exec (bitwiseOf c p) s = .next (respond .ok (.crc (bitwiseCrc c s.msg p)) s) := by
  cases c
  · exact perform_bitwise .normal p s ((lengthExceeded_eq_false_iff s).2 hl)
  · exact perform_bitwise .reflected p s ((lengthExceeded_eq_false_iff s).2 hl)

/-- A step that takes a table command within the bound, on the slot a build under P leaves, answers the CRC under P. -/
theorem step_lookOf_of_built {s : State} {c : Conv} {p : Byte} {m : List Byte} {rest : List HostEvent}
    (he : s.inbox = .command (encode (lookOf c)) m :: rest) (hl : LengthAccepted { s with msg := m })
    (hslot : s.slot c = ⟨true, some p, cellsOf (builtTable c p)⟩) :
    step s = .next (respond .ok (.crc (bitwiseCrc c m p)) (issue m rest s)) := by
  have hslot' : (issue m rest s).slot c = ⟨true, some p, cellsOf (builtTable c p)⟩ := by rw [issue_slot, hslot]
  calc step s
    _ = exec (lookOf c) (issue m rest s) := step_command_of_decodeWord he (decodeWord_encode _)
    _ = exec (bitwiseOf c p) (issue m rest s) :=
      exec_lookOf_eq_exec_bitwiseOf (by rw [hslot']) (slotReads_of_slot_eq hslot')
    _ = .next (respond .ok (.crc (bitwiseCrc c m p)) (issue m rest s)) := exec_bitwiseOf c p hl

/-- A step that takes a word which is no build of convention `c` keeps slot `c` (R22). -/
theorem step_command_keeps_slot {s t : State} {w : Cmd} {m : List Byte} {rest : List HostEvent} {c : Conv}
    (he : s.inbox = .command w m :: rest) (hw : ∀ i, decodeWord w = .ok i → slotWrittenBy i ≠ some c)
    (h : step s = .next t) : t.slot c = s.slot c := by
  rcases step_slot h c with hc | ⟨e, rest', he', hne⟩ | ⟨w', m', rest', i, he', hd, hwritten, -⟩
  · exact hc
  · rw [he] at he'
    cases he'
    exact absurd rfl (hne w m)
  · rw [he] at he'
    cases he'
    exact absurd hwritten (hw i hd)

/-- From an invariant state, commands none of which is a build of convention `c` run in as many steps and keep slot `c`. -/
theorem run_commands_keep_slot {s : State} {cmds : List (Cmd × List Byte)} {rest : List HostEvent} {c : Conv}
    (hi : Invariant s) (he : s.inbox = (cmds.map fun x => HostEvent.command x.1 x.2) ++ rest)
    (hw : ∀ x ∈ cmds, ∀ i, decodeWord x.1 = .ok i → slotWrittenBy i ≠ some c) :
    ∃ t : State, Sys2Proof.core.run cmds.length s = .next t ∧ t.inbox = rest ∧ t.cfg = s.cfg ∧ t.slot c = s.slot c := by
  induction cmds generalizing s with
  | nil => exact ⟨s, run_zero s, he, rfl, rfl⟩
  | cons x cmds ih =>
    obtain ⟨u, -, hstep, -, hin⟩ := step_command_answers hi.slots he
    have hslot := step_command_keeps_slot he (hw x List.mem_cons_self) hstep
    obtain ⟨t, hrun, hrest, hcfg, hslot'⟩ :=
      ih (step_keeps_invariant hi hstep) hin fun y hy => hw y (List.mem_cons_of_mem x hy)
    exact ⟨t, (run_succ hstep _).trans hrun, hrest, hcfg.trans (step_keeps_cfg hstep), hslot'.trans hslot⟩

/-- A build, then commands that are no build of its convention, then its table command, which answers the CRC under the
build's polynomial (R114). -/
theorem run_build_commands_look {s : State} {c : Conv} {p : Byte} {cmds : List (Cmd × List Byte)} {a m : List Byte}
    (hi : Invariant s)
    (he : s.inbox = .command (encode (buildOf c p)) a :: ((cmds.map fun x => HostEvent.command x.1 x.2) ++
      [.command (encode (lookOf c)) m]))
    (hw : ∀ x ∈ cmds, ∀ i, decodeWord x.1 = .ok i → slotWrittenBy i ≠ some c)
    (hl : LengthAccepted { s with msg := m }) :
    ∃ t u : State, Sys2Proof.core.run (1 + cmds.length) s = .next t ∧ step t = .next u ∧
      u.outbox = t.outbox ++ [⟨.ok, .crc (bitwiseCrc c m p)⟩] ∧
      t.slot c = ⟨true, some p, cellsOf (builtTable c p)⟩ ∧ u.slot c = t.slot c := by
  obtain ⟨b, -, hbuild, hin, -, hbuilt⟩ := step_buildOf he
  obtain ⟨t, hrun, hlook, hcfg, hslot⟩ := run_commands_keep_slot (step_keeps_invariant hi hbuild) hin hw
  rw [hbuilt] at hslot
  have hl' : LengthAccepted { t with msg := m } := fun n hn =>
    hl n (by rw [← hn, ← step_keeps_cfg hbuild, ← hcfg])
  refine ⟨t, _, ?_, step_lookOf_of_built hlook hl' hslot, rfl, hslot, by rw [respond_slot, issue_slot]⟩
  rw [Nat.add_comm, run_succ hbuild, hrun]

/-- Settles O49: no command between the build and the lookup writes the slot, so the lookup finds what the build left. -/
theorem lookupsUseTheLastBuild : Obligations.LookupsUseTheLastBuild := by
  intro s p cmds m c build look hi hconv hw hl
  obtain ⟨rfl, rfl⟩ : build = buildOf c p ∧ look = lookOf c := by
    rcases hconv with ⟨rfl, rfl, rfl⟩ | ⟨rfl, rfl, rfl⟩ <;> exact ⟨rfl, rfl⟩
  obtain ⟨t, u, hrun, hstep, hout, hslot, hkept⟩ := run_build_commands_look
    (s := { s with inbox := .command (encode (buildOf c p)) [] :: ((cmds.map fun x => HostEvent.command x.1 x.2) ++
      [.command (encode (lookOf c)) m]) }) ⟨hi.slots, hi.noCommand, hi.noMessage, hi.responses⟩ rfl hw hl
  refine ⟨t, u, hrun, hstep, ?_, by rw [hslot], by rw [hslot], slotReads_of_slot_eq hslot, hkept⟩
  rw [hout]
  cases c <;> rfl

end Sys2Proof.Machine
end
